-- ==== Sys2Proof/Word.lean ====
section
/-! DEFINITION. The words of the croc32 codec block (spec/00_scope.md R5, R7): every value is unsigned and bit 0 is
the least significant bit. -/

namespace Sys2Proof

/-- One byte of a buffer, one symbol code, one FWD_ROM entry (R5, R40). -/
abbrev Byte := BitVec 8

/-- The index of a symbol in the alphabet, 0..31 (R5). -/
abbrev Index := BitVec 5

/-- One REV_ROM entry, `VALID ++ IDX` (R82). -/
abbrev RevEntry := BitVec 6

/-- The 40-bit unsigned integer of one quantum (R5, R41). -/
abbrev Quantum := BitVec 40

/-- The operand word OPW and the result word RW (R5). -/
abbrev Word := BitVec 64

/-- The command word CMD (R60). -/
abbrev Command := BitVec 16

end Sys2Proof
end

