-- ==== Sys2Proof/Syntax.lean ====
section
/-! DEFINITION. The instructions: one constructor per row of spec/opcode_table.json (spec/30_encoding.md R61). The fields
are the command word's own (R60); the operand word and the buffer are the captured request's (R63, R64). -/

namespace Sys2Proof

/-- The seven operations of the block (R61). -/
inductive Instr where
  /-- Encode one group of `nb` bytes to one 8-symbol quantum (R101). NB is the raw 3-bit field. -/
  | encq (nb : BitVec 3)
  /-- Decode one 8-symbol quantum; `cf` folds case, `last` admits padding (R122). -/
  | decq (cf last : Bool)
  /-- Read the forward table (R86). -/
  | fwdrd
  /-- Read the reverse table (R87). -/
  | revrd
  /-- Encode a whole buffer (R103). -/
  | encode
  /-- Decode a whole buffer; `cf` folds case (R125). -/
  | decode (cf : Bool)
  /-- Read the pair table (R88). -/
  | pairrd
deriving DecidableEq, Repr

end Sys2Proof
end

