-- ==== Sys2Proof/Decode.lean ====
section
/-! DEFINITION. The command word (spec/30_encoding.md R60 to R62, R70): its fields, a total decoder that rejects by name,
and the encoder written from the same tables. The conditions of R62 beyond a row's match and mask (NB in 1..5,
HAS_PAIR_ROM = 1, LEN <= MAX_IN_LEN) are checked in Machine/Legality.lean, before anything an operation does (log 11). -/

namespace Sys2Proof

/-- `OP = CMD[2:0]` (R60). -/
def cmdOp (w : Command) : BitVec 3 := w.extractLsb' 0 3

/-- `CF = CMD[3]` (R60). -/
def cmdCf (w : Command) : Bool := w.getLsbD 3

/-- `NB = CMD[6:4]` (R60). -/
def cmdNb (w : Command) : BitVec 3 := w.extractLsb' 4 3

/-- `LAST = CMD[7]` (R60). -/
def cmdLast (w : Command) : Bool := w.getLsbD 7

/-- `RSVD = CMD[15:8]` (R60). -/
def cmdRsvd (w : Command) : BitVec 8 := w.extractLsb' 8 8

/-- Why a command word is no row of the opcode table (R66 (a) to (c)). The block does not report the cause (R175). -/
inductive DecodeError where
  /-- `OP = 111` (R66 (a)). -/
  | reservedOp
  /-- `RSVD != 0` (R66 (b)). -/
  | reservedBits
  /-- A field that must be zero for this OP is not (R66 (c)). -/
  | unusedField
deriving DecidableEq, Repr

/-- The decoding procedure of R70, up to the conditions beyond match and mask. -/
def decode (w : Command) : Except DecodeError Instr :=
  if cmdRsvd w ≠ 0#8 then .error .reservedBits
  else
    match (cmdOp w).toNat with
    | 0 => if cmdCf w || cmdLast w then .error .unusedField else .ok (.encq (cmdNb w))
    | 1 => if cmdNb w ≠ 0#3 then .error .unusedField else .ok (.decq (cmdCf w) (cmdLast w))
    | 2 => if cmdCf w || cmdLast w || cmdNb w ≠ 0#3 then .error .unusedField else .ok .fwdrd
    | 3 => if cmdCf w || cmdLast w || cmdNb w ≠ 0#3 then .error .unusedField else .ok .revrd
    | 4 => if cmdCf w || cmdLast w || cmdNb w ≠ 0#3 then .error .unusedField else .ok .encode
    | 5 => if cmdLast w || cmdNb w ≠ 0#3 then .error .unusedField else .ok (.decode (cmdCf w))
    | 6 => if cmdCf w || cmdLast w || cmdNb w ≠ 0#3 then .error .unusedField else .ok .pairrd
    | _ => .error .reservedOp

/-- A command word from its fields, `RSVD ++ LAST ++ NB ++ CF ++ OP` with RSVD zero (R60). -/
def packCommand (op : BitVec 3) (cf : Bool) (nb : BitVec 3) (last : Bool) : Command :=
  0#8 ++ BitVec.ofBool last ++ nb ++ BitVec.ofBool cf ++ op

/-- The command word of an instruction (R61, R62). -/
def encode (i : Instr) : Command :=
  match i with
  | .encq nb => packCommand 0b000#3 false nb false
  | .decq cf last => packCommand 0b001#3 cf 0#3 last
  | .fwdrd => packCommand 0b010#3 false 0#3 false
  | .revrd => packCommand 0b011#3 false 0#3 false
  | .encode => packCommand 0b100#3 false 0#3 false
  | .decode cf => packCommand 0b101#3 cf 0#3 false
  | .pairrd => packCommand 0b110#3 false 0#3 false

/-- The match of an instruction's row in R62's table. -/
def rowMatch (i : Instr) : Command :=
  match i with
  | .encq _ => 0x0000#16
  | .decq _ _ => 0x0001#16
  | .fwdrd => 0x0002#16
  | .revrd => 0x0003#16
  | .encode => 0x0004#16
  | .decode _ => 0x0005#16
  | .pairrd => 0x0006#16

/-- The mask of an instruction's row in R62's table. -/
def rowMask (i : Instr) : Command :=
  match i with
  | .encq _ => 0xFF8F#16
  | .decq _ _ => 0xFF77#16
  | .fwdrd => 0xFFFF#16
  | .revrd => 0xFFFF#16
  | .encode => 0xFFFF#16
  | .decode _ => 0xFFF7#16
  | .pairrd => 0xFFFF#16

/-- The command word whose bits are `w`, as spec/opcode_table.json numbers them. Every command word has 16 bits (R69), so a
table word given with more is none. R69 knows no table word given with fewer: reading one as the 16-bit word whose bits above
`nbits` are zero is the model's (DESIGN CHOICE, log 18); no row of the table is given so. -/
def commandOfTable (nbits w : Nat) : Option Command :=
  if nbits ≤ 16 then some (BitVec.ofNat 16 (w % 2 ^ nbits)) else none

/-- The instruction the decoder reads from a table word; none where it refuses. -/
def decodeTableWord (nbits w : Nat) : Option Instr :=
  match commandOfTable nbits w with
  | some c =>
    match decode c with
    | .ok i => some i
    | .error _ => none
  | none => none

end Sys2Proof
end

