-- ==== Sys2Proof/Config.lean ====
section
/-! DEFINITION. The open parameters of an instance of the block (spec/00_scope.md R6). The spec leaves both values open
("The model takes these as arguments"), so they travel in State as plain data that no step changes, and their values at
reset are constants without a body: nothing can be proved that rests on one value (DESIGN CHOICE, log 1). -/

namespace Sys2Proof

/-- The arguments of the model (R6). -/
structure Params where
  /-- MAX_IN_LEN: the largest LEN an ENCODE or DECODE request may carry. -/
  maxInLen : Nat
  /-- HAS_PAIR_ROM: whether the pair table is present. -/
  hasPairRom : Bool
deriving DecidableEq, Repr

/-- MAX_IN_LEN of the instance (R6, open). -/
opaque Config.maxInLen : Nat

/-- HAS_PAIR_ROM of the instance (R6, open). -/
opaque Config.hasPairRom : Bool

/-- The parameters of the instance. -/
def Config.params : Params := { maxInLen := Config.maxInLen, hasPairRom := Config.hasPairRom }

end Sys2Proof
end

