-- ==== Sys2Proof/Machine/State.lean ====
section
/-! DEFINITION. The state of the block and of its host channels, as plain data (spec/10_state.md R20 to R30). The three ROMs
are constant parameters of the step relation (R196) and stand in Machine/LookupRom.lean. -/

namespace Sys2Proof.Machine

/-- PHASE, the only sequencing state (R22). -/
inductive Phase where
  /-- Ready to accept a request. -/
  | idle
  /-- A request has been captured and its operation is being computed. -/
  | busy
  /-- A response is held for the host. -/
  | resp
deriving DecidableEq, Repr

/-- STATUS, the completion code (R67); its 3-bit code is `Status.code` in Machine/Flags.lean. The reserved codes 6 and 7 are
never produced and have no constructor (log 4). -/
inductive Status where
  /-- Code 0: success. -/
  | ok
  /-- Code 1: DECQ and DECODE. -/
  | paddingError
  /-- Code 2: DECQ and DECODE. -/
  | invalidDigit
  /-- Code 3: the host wrapper only, never the block. -/
  | nonAsciiInput
  /-- Code 4: the host wrapper only, never the block. -/
  | unsupportedInputType
  /-- Code 5: any malformed request. -/
  | illegalCommand
deriving DecidableEq, Repr

/-- A request: what the host offers and, once captured, REQ (R23). LEN is the number of bytes of IN (log 3). -/
structure Request where
  /-- CMD[15:0], the command word. -/
  cmd : Command
  /-- OPW[63:0], the operand word. -/
  opw : Word
  /-- IN, the input buffer. -/
  input : List Byte
deriving DecidableEq, Repr

/-- A response, RSP (R24). OUT_LEN is the number of bytes of OUT (log 3). -/
structure Response where
  /-- STATUS[2:0], the completion code. -/
  status : Status
  /-- RW[63:0], the result word. -/
  rw : Word
  /-- RCNT[2:0], the number of significant result bytes of DECQ. -/
  rcnt : BitVec 3
  /-- OUT, the output buffer. -/
  out : List Byte
deriving DecidableEq, Repr

/-- What the host drives during one step (R25, R190). -/
structure HostInput where
  /-- req_valid with the request fields: `none` is req_valid = 0. -/
  req : Option Request
  /-- rsp_ready. -/
  rspReady : Bool
  /-- The reset line. -/
  reset : Bool
deriving DecidableEq, Repr

/-- LEN of a request (R23). -/
def Request.len (r : Request) : Nat := r.input.length

/-- OUT_LEN of a response (R24). -/
def Response.outLen (x : Response) : Nat := x.out.length

/-- The state: the block's PHASE, REQ and RSP (R20, R196), the instance's parameters (R6, log 1), and the two ends of the
host's channels (log 2). -/
structure State where
  /-- PHASE. -/
  phase : Phase
  /-- REQ; `none` is the absent request of R30. -/
  req : Option Request
  /-- RSP; `none` is the absent response of R30. -/
  rsp : Option Response
  /-- MAX_IN_LEN and HAS_PAIR_ROM; no step changes them. -/
  params : Params
  /-- What the host drives in the coming steps, the next step first; an empty list is a host that drives nothing. -/
  inputs : List HostInput
  /-- The responses the host has received, oldest first: the observation of R199. -/
  delivered : List Response
deriving DecidableEq, Repr

/-- Why a step stops. No rule of the spec stops the block: its errors are completion codes (R171). Both faults are the
model's own, for states that no run reaches (log 6). -/
inductive Fault where
  /-- Raised by an operation and by step in BUSY when no request is captured. Safe: R196 enters BUSY only by capturing one. -/
  | noRequest
  /-- Raised by step in RESP when no response is held. Safe: R196 enters RESP only by writing one. -/
  | noResponse
deriving DecidableEq, Repr

/-- Why an instruction has no meaning. -/
inductive Refusal where
  /-- Raised by exec's arm of an instruction that has no meaning yet; no arm does so now. Safe: the machine stops. -/
  | notModelled (mnemonic : String)
deriving DecidableEq, Repr

/-- The block right after reset, in an instance with parameters `p` (R30): IDLE, no request, no response. -/
def State.resetWith (p : Params) : State :=
  { phase := .idle, req := none, rsp := none, params := p, inputs := [], delivered := [] }

/-- The block right after reset (R30). -/
def State.reset : State := State.resetWith Config.params

end Sys2Proof.Machine
end

