-- ==== Sys2Proof/Machine/Flags.lean ====
section
/-! DEFINITION. STATUS, the only flag-like state of the block (spec/10_state.md R26), and the two handshake signals, which
are functions of PHASE (R25). -/

namespace Sys2Proof.Machine

/-- The 3-bit code of a status (spec/30_encoding.md R67). -/
def Status.code (k : Status) : BitVec 3 :=
  match k with
  | .ok => 0#3
  | .paddingError => 1#3
  | .invalidDigit => 2#3
  | .nonAsciiInput => 3#3
  | .unsupportedInputType => 4#3
  | .illegalCommand => 5#3

/-- Whether the block itself produces this status (R67's last column). -/
def Status.byBlock (k : Status) : Bool :=
  match k with
  | .ok => true
  | .paddingError => true
  | .invalidDigit => true
  | .nonAsciiInput => false
  | .unsupportedInputType => false
  | .illegalCommand => true

/-- `req_ready = (PHASE = IDLE)` (R25). -/
def State.reqReady (s : State) : Bool := decide (s.phase = .idle)

/-- `rsp_valid = (PHASE = RESP)` (R25). -/
def State.rspValid (s : State) : Bool := decide (s.phase = .resp)

end Sys2Proof.Machine
end

