-- ==== Sys2Proof/Machine/Ops.lean ====
section
/-! DEFINITION. The named operations of the sequencer: how an operation ends (spec/00_scope.md R9: respond and raise), the
steps Accept, Deliver and Reset, and which step is taken (spec/70_reset_and_hazards.md R196). The block has no memory it
can write and no registers: a transaction's only effect is its response (spec/20_memory.md R46). -/

namespace Sys2Proof.Machine

/-- `respond(OK, RW = rw, RCNT = rcnt, OUT = [])`, a quantum or table operation's success (R65). -/
def Response.word (rw : Word) (rcnt : BitVec 3) : Response :=
  { status := .ok, rw := rw, rcnt := rcnt, out := [] }

/-- `respond(OK, RW = 0, RCNT = 0, OUT = out)`, a buffer operation's success (R65). -/
def Response.buffer (out : List Byte) : Response :=
  { status := .ok, rw := 0#64, rcnt := 0#3, out := out }

/-- `raise k`: the one way an operation fails. STATUS is the error's code and every other field is zero or empty
(spec/60_exceptions.md R171, R172). Nothing else is saved and there is no return from it (R177). -/
def Response.raise (k : Status) : Response :=
  { status := k, rw := 0#64, rcnt := 0#3, out := [] }

/-- Completion: `RSP <- x; PHASE <- RESP`, for a success and for an error alike (R171, R196). -/
def State.complete (s : State) (x : Response) : State := { s with phase := .resp, rsp := some x }

/-- Execute's frame: an operation computes its response from the parameters and REQ alone (R48) and completes. -/
def State.runOp (s : State) (f : Params → Request → Response) : Host.Outcome State Fault Refusal :=
  match s.req with
  | some r => .next (s.complete (f s.params r))
  | none => .fault .noRequest

/-- Accept(r): `REQ <- copy(r); PHASE <- BUSY` (R196, spec/20_memory.md R49). -/
def State.accept (s : State) (r : Request) : State := { s with phase := .busy, req := some r }

/-- Deliver: the host receives RSP, `PHASE <- IDLE` (R196). REQ and RSP are unspecified from here on, so the model holds none
(R20: nothing persists between transactions; log 7). -/
def State.deliver (s : State) : Host.Outcome State Fault Refusal :=
  match s.rsp with
  | some x => .next { s with phase := .idle, req := none, rsp := none, delivered := s.delivered ++ [x] }
  | none => .fault .noResponse

/-- Reset: `PHASE <- IDLE`, REQ and RSP discarded (R190). The host's record of what it received is not the block's. -/
def State.resetBlock (s : State) : State := { s with phase := .idle, req := none, rsp := none }

/-- A host that drives nothing: req_valid = 0, rsp_ready = 0, reset not asserted. -/
def HostInput.quiet : HostInput := { req := none, rspReady := false, reset := false }

/-- The host offers `r`. -/
def HostInput.offer (r : Request) : HostInput := { req := some r, rspReady := false, reset := false }

/-- The host is ready to take a response. -/
def HostInput.take : HostInput := { req := none, rspReady := true, reset := false }

/-- The host asserts reset. -/
def HostInput.assertReset : HostInput := { req := none, rspReady := false, reset := true }

/-- What the host drives in this step. -/
def State.hostNow (s : State) : HostInput := s.inputs.headD HostInput.quiet

/-- The step passes: what the host drove in it is gone. -/
def State.tick (s : State) : State := { s with inputs := s.inputs.tail }

/-- The steps of R196, and `wait` for a step in which none of them is enabled (log 9). -/
inductive Action where
  | reset
  | accept (r : Request)
  | execute
  | deliver
  | wait
deriving DecidableEq, Repr

/-- Which step of R196 is taken. Reset is possible in any phase and goes before the others (log 10); a request is accepted
when req_valid and req_ready both hold, a response is delivered when rsp_valid and rsp_ready both hold (R25), and Execute is
always enabled in BUSY (log 8). -/
def State.action (s : State) : Action :=
  if s.hostNow.reset then .reset
  else
    match s.phase with
    | .idle =>
      match s.hostNow.req with
      | some r => .accept r
      | none => .wait
    | .busy => .execute
    | .resp => if s.hostNow.rspReady then .deliver else .wait

/-- Put a request whose command word is `c`, with operand word zero and an empty buffer, where the next step executes it, and
keep the host from asserting reset in that step (log 14). -/
def State.placeCommand (s : State) (c : Command) : State :=
  { s with
    phase := .busy
    req := some { cmd := c, opw := 0#64, input := [] }
    inputs := match s.inputs with
      | [] => []
      | h :: t => { h with reset := false } :: t }

end Sys2Proof.Machine
end

