-- ==== Sys2Proof/Machine/Legality.lean ====
section
/-! DEFINITION. The legality conditions of a request beyond its row's match and mask (spec/30_encoding.md R62, R66 (d) to (f)),
checked before anything the operation itself does. -/

namespace Sys2Proof.Machine

/-- `NB in 1..5` (R66 (d)). -/
def nbInRange (nb : BitVec 3) : Bool := decide (1 ≤ nb.toNat) && decide (nb.toNat ≤ 5)

/-- R66 (d) to (f) for a decoded command and a buffer of `len` bytes. LEN is checked for ENCODE and DECODE only (R64). -/
def legal (p : Params) (i : Instr) (len : Nat) : Bool :=
  match i with
  | .encq nb => nbInRange nb
  | .decq _ _ => true
  | .fwdrd => true
  | .revrd => true
  | .encode => decide (len ≤ p.maxInLen)
  | .decode _ => decide (len ≤ p.maxInLen)
  | .pairrd => p.hasPairRom

/-- An operation behind its legality check: an illegal request completes with ILLEGAL_COMMAND (R66). -/
def guarded (p : Params) (i : Instr) (r : Request) (x : Response) : Response :=
  if legal p i r.len then x else Response.raise .illegalCommand

end Sys2Proof.Machine
end

