-- ==== Sys2Proof/Machine/Operands.lean ====
section
/-! DEFINITION. Every operand form and every packing of a result (spec/20_memory.md R41 to R43, spec/30_encoding.md R63 to
R65): slices of the operand word, bytes and symbol indices of a quantum, bytes of a buffer. -/

namespace Sys2Proof.Machine

/-- The pad character `=` (R5). -/
def padChar : Byte := 0x3D#8

/-- Byte lane `k` of a word that carries 8 bytes, bits `[63-8k : 56-8k]` (R43). -/
def wordLane (w : Word) (k : Nat) : Byte := w.extractLsb' (56 - 8 * k) 8

/-- Byte `k` of a quantum, bits `[39-8k : 32-8k]` (R41). -/
def quantumByte (v : Quantum) (k : Nat) : Byte := v.extractLsb' (32 - 8 * k) 8

/-- Symbol index `j` of a quantum, bits `[39-5j : 35-5j]`, most significant first (R42). -/
def symbolIndex (v : Quantum) (j : Nat) : Index := v.extractLsb' (35 - 5 * j) 5

/-- The 10-bit field `m` of a quantum, bits `[39-10m : 30-10m]` (spec/41_encoder.md R106). -/
def pairField (v : Quantum) (m : Nat) : BitVec 10 := v.extractLsb' (30 - 10 * m) 10

/-- Group byte `g[k]` of ENCQ, `OPW[39-8k : 32-8k]`; `OPW[63:40]` is ignored (R63). -/
def groupByte (opw : Word) (k : Nat) : Byte := opw.extractLsb' (32 - 8 * k) 8

/-- Input byte `s[j]` of DECQ, `OPW[63-8j : 56-8j]` (R63). -/
def quantumSymbol (opw : Word) (j : Nat) : Byte := wordLane opw j

/-- The index of FWDRD, `OPW[4:0]` (R63). -/
def fwdOperand (opw : Word) : Index := opw.extractLsb' 0 5

/-- The byte of REVRD, `OPW[7:0]` (R63). -/
def revOperand (opw : Word) : Byte := opw.extractLsb' 0 8

/-- The pair index of PAIRRD, `OPW[9:0]` (R63). -/
def pairOperand (opw : Word) : BitVec 10 := opw.extractLsb' 0 10

/-- `b[0] ++ b[1] ++ b[2] ++ b[3] ++ b[4]`, the big-endian quantum of five bytes (R41). -/
def quantumOf (b : Nat → Byte) : Quantum := b 0 ++ b 1 ++ b 2 ++ b 3 ++ b 4

/-- `s[0] ++ s[1] ++ ... ++ s[7]`, the word of eight byte lanes, lane 0 most significant (R43). -/
def wordOf (s : Nat → Byte) : Word := s 0 ++ s 1 ++ s 2 ++ s 3 ++ s 4 ++ s 5 ++ s 6 ++ s 7

/-- `MemRead(IN, i, 1)` (spec/00_scope.md R9). The rules read only `i < LEN`. -/
def memRead (buf : List Byte) (i : Nat) : Byte := buf.getD i 0#8

/-- `trail(b, 0x3D)`, the number of trailing pad bytes (spec/00_scope.md R8). -/
def trailPad (b : List Byte) : Nat := (b.reverse.takeWhile (· == padChar)).length

end Sys2Proof.Machine
end

