-- ==== Sys2Proof/Machine/LookupRom.lean ====
section
/-! DEFINITION. lookup_table_rom (spec/40_lookup_rom.md): the three constant tables, the case-fold map, and FWDRD, REVRD and
PAIRRD. The tables are valid from power-on and nothing writes them (R28, R89, R191). -/

namespace Sys2Proof.Machine

/-- FWD_ROM as one image, in address order (R81). -/
def fwdImage : List Byte :=
  [0x30#8, 0x31#8, 0x32#8, 0x33#8, 0x34#8, 0x35#8, 0x36#8, 0x37#8] ++
  [0x38#8, 0x39#8, 0x41#8, 0x42#8, 0x43#8, 0x44#8, 0x45#8, 0x46#8] ++
  [0x47#8, 0x48#8, 0x4A#8, 0x4B#8, 0x4D#8, 0x4E#8, 0x50#8, 0x51#8] ++
  [0x52#8, 0x53#8, 0x54#8, 0x56#8, 0x57#8, 0x58#8, 0x59#8, 0x5A#8]

/-- `ROM_FWD(i)` (R81). The image has an entry for every 5-bit index. -/
def fwdRom (i : Index) : Byte := fwdImage.getD i.toNat 0#8

/-- REV_ROM's rows 3_, 4_ and 5_ (R82); every other row is 00 in every column. -/
def revRows : List RevEntry :=
  [0x20#6, 0x21#6, 0x22#6, 0x23#6, 0x24#6, 0x25#6, 0x26#6, 0x27#6] ++
  [0x28#6, 0x29#6, 0x00#6, 0x00#6, 0x00#6, 0x00#6, 0x00#6, 0x00#6] ++
  [0x00#6, 0x2A#6, 0x2B#6, 0x2C#6, 0x2D#6, 0x2E#6, 0x2F#6, 0x30#6] ++
  [0x31#6, 0x00#6, 0x32#6, 0x33#6, 0x00#6, 0x34#6, 0x35#6, 0x00#6] ++
  [0x36#6, 0x37#6, 0x38#6, 0x39#6, 0x3A#6, 0x00#6, 0x3B#6, 0x3C#6] ++
  [0x3D#6, 0x3E#6, 0x3F#6, 0x00#6, 0x00#6, 0x00#6, 0x00#6, 0x00#6]

/-- `ROM_REV(c)` as the 6-bit entry `VALID ++ IDX` (R82): rows 0_ to 2_ and 6_ to F_ are zero. -/
def revRom (c : Byte) : RevEntry := if c.toNat < 0x30 then 0#6 else revRows.getD (c.toNat - 0x30) 0#6

/-- VALID of a REV_ROM entry (R82). -/
def revValid (e : RevEntry) : Bool := e.getLsbD 5

/-- IDX of a REV_ROM entry (R82). -/
def revIdx (e : RevEntry) : Index := e.extractLsb' 0 5

/-- `ROM_PAIR(a) = FWD_ROM[a[9:5]] ++ FWD_ROM[a[4:0]]` (R83). -/
def pairRom (a : BitVec 10) : BitVec 16 := fwdRom (a.extractLsb' 5 5) ++ fwdRom (a.extractLsb' 0 5)

/-- `FOLD(c)`: `a`..`z` to `A`..`Z`, every other byte unchanged (R84). -/
def fold (c : Byte) : Byte := if 0x61 ≤ c.toNat ∧ c.toNat ≤ 0x7A then c - 0x20#8 else c

/-- The fold is applied only when `CF = 1` (R84). -/
def foldIf (cf : Bool) (c : Byte) : Byte := if cf then fold c else c

/-- FWDRD's response (R86). -/
def fwdrdResponse (r : Request) : Response := Response.word ((fwdRom (fwdOperand r.opw)).setWidth 64) 0#3

/-- REVRD's response: the raw entry, OK even when VALID = 0, no fold (R87). -/
def revrdResponse (r : Request) : Response := Response.word ((revRom (revOperand r.opw)).setWidth 64) 0#3

/-- PAIRRD's response (R88). -/
def pairrdResponse (r : Request) : Response := Response.word ((pairRom (pairOperand r.opw)).setWidth 64) 0#3

/-- FWDRD (R86). -/
def execFwdrd (s : State) : Host.Outcome State Fault Refusal :=
  s.runOp fun p r => guarded p .fwdrd r (fwdrdResponse r)

/-- REVRD (R87). -/
def execRevrd (s : State) : Host.Outcome State Fault Refusal :=
  s.runOp fun p r => guarded p .revrd r (revrdResponse r)

/-- PAIRRD: ILLEGAL_COMMAND when the table is absent (R88). -/
def execPairrd (s : State) : Host.Outcome State Fault Refusal :=
  s.runOp fun p r => guarded p .pairrd r (pairrdResponse r)

end Sys2Proof.Machine
end

