-- ==== Sys2Proof/Machine/Decoder.lean ====
section
/-! DEFINITION. base32_decoder_8to5 (spec/42_decoder.md): the padding inverse, DECQ and DECODE, with the checks in the order
the spec gives them (R125, spec/60_exceptions.md R173, R174; log 13). -/

namespace Sys2Proof.Machine

/-- `LEFT(p)` (R120), absent for the counts that R121 rejects. -/
def leftBytes (p : Nat) : Option Nat :=
  match p with
  | 0 => some 5
  | 1 => some 4
  | 3 => some 3
  | 4 => some 2
  | 6 => some 1
  | _ => none

/-- The lookup loop of R122 over the data symbols `c[j], c[j+1], ...`: symbol `j`'s index goes to bits `39-5j .. 35-5j` of the
accumulator, and the first byte that is no symbol ends it. -/
def lookupSymbols (c : List Byte) (j : Nat) (v : Quantum) : Except Status Quantum :=
  match c with
  | [] => .ok v
  | x :: rest =>
    if revValid (revRom x) then
      lookupSymbols rest (j + 1) (v ||| (((revIdx (revRom x)).setWidth 40) <<< (35 - 5 * j)))
    else .error .invalidDigit

/-- The bytes of a decoded quantum: `r[k] <- (k < L) ? v[39-8k : 32-8k] : 0x00` (R122). -/
def keptByte (n : Nat) (v : Quantum) (k : Nat) : Byte := if k < n then quantumByte v k else 0#8

/-- `DECQ_fn` (R122) on the eight bytes `c` of a quantum, already folded: the bytes as one quantum, and how many are real. -/
def decodeQuantum (last : Bool) (c : List Byte) : Except Status (Quantum × Nat) :=
  let p := if last then trailPad c else 0
  match leftBytes p with
  | none => .error .paddingError
  | some n =>
    match lookupSymbols (c.take (8 - p)) 0 0#40 with
    | .error k => .error k
    | .ok v => .ok (quantumOf (keptByte n v), n)

/-- The eight bytes of DECQ's operand, folded when `CF = 1` (R122). -/
def decqSymbols (cf : Bool) (opw : Word) : List Byte := (List.range 8).map fun j => foldIf cf (quantumSymbol opw j)

/-- DECQ's response (R122). -/
def decqResponse (cf last : Bool) (r : Request) : Response :=
  match decodeQuantum last (decqSymbols cf r.opw) with
  | .ok (v, n) => Response.word (v.setWidth 64) (BitVec.ofNat 3 n)
  | .error k => Response.raise k

/-- Quantum `q` of a folded buffer, `c[8q .. 8q+7]` (R125). -/
def quantumAt (c : List Byte) (q : Nat) : List Byte := (c.drop (8 * q)).take 8

/-- Step 5 of R125 over the quanta whose numbers are `qs`: their real bytes after `out`, or the first error. -/
def decodeQuanta (c : List Byte) (count : Nat) (qs : List Nat) (out : List Byte) : Except Status (List Byte) :=
  match qs with
  | [] => .ok out
  | q :: rest =>
    match decodeQuantum (decide (q + 1 = count)) (quantumAt c q) with
    | .error k => .error k
    | .ok (v, n) => decodeQuanta c count rest (out ++ (List.range n).map (quantumByte v))

/-- DECODE's body (R125): length, fold, padding count of the whole buffer, then the quanta in order. -/
def decodeBytes (cf : Bool) (buf : List Byte) : Except Status (List Byte) :=
  if buf.length % 8 ≠ 0 then .error .paddingError
  else
    let c := buf.map (foldIf cf)
    match leftBytes (trailPad c) with
    | none => .error .paddingError
    | some _ => decodeQuanta c (c.length / 8) (List.range (c.length / 8)) []

/-- DECODE's response (R125); on an error the output built so far is discarded (spec/60_exceptions.md R172). -/
def decodeResponse (cf : Bool) (r : Request) : Response :=
  match decodeBytes cf r.input with
  | .ok out => Response.buffer out
  | .error k => Response.raise k

/-- DECQ (R122). -/
def execDecq (cf last : Bool) (s : State) : Host.Outcome State Fault Refusal :=
  s.runOp fun p r => guarded p (.decq cf last) r (decqResponse cf last r)

/-- DECODE (R125). -/
def execDecode (cf : Bool) (s : State) : Host.Outcome State Fault Refusal :=
  s.runOp fun p r => guarded p (.decode cf) r (decodeResponse cf r)

end Sys2Proof.Machine
end

