-- ==== Sys2Proof/Machine/Encoder.lean ====
section
/-! DEFINITION. base32_encoder_5to8 (spec/41_encoder.md): the padding table, ENCQ and ENCODE. -/

namespace Sys2Proof.Machine

/-- `PADS(nb)` (R100). A group has 1..5 real bytes; the last line is never used (R66 (d) rejects such an NB first). -/
def pads (nb : Nat) : Nat :=
  match nb with
  | 1 => 6
  | 2 => 4
  | 3 => 3
  | 4 => 1
  | 5 => 0
  | _ => 0

/-- The group with the bytes at and beyond `nb` forced to zero, `b[k] <- (k < nb) ? g[k] : 0x00` (R101, R102). -/
def zeroBeyond (nb : Nat) (g : Nat → Byte) : Nat → Byte := fun k => if k < nb then g k else 0#8

/-- `ENCQ_fn`'s symbol `j`: the data symbols, then `=` (R101). -/
def encSymbol (nb : Nat) (v : Quantum) (j : Nat) : Byte :=
  if j < 8 - pads nb then fwdRom (symbolIndex v j) else padChar

/-- The quantum of one group of `nb` real bytes (R101). -/
def groupQuantum (nb : Nat) (g : Nat → Byte) : Quantum := quantumOf (zeroBeyond nb g)

/-- ENCQ's response (R101). -/
def encqResponse (nb : BitVec 3) (r : Request) : Response :=
  Response.word (wordOf (encSymbol nb.toNat (groupQuantum nb.toNat (groupByte r.opw)))) 0#3

/-- The number of groups of an input of `n` bytes, `ceil(n / 5)` (R103). -/
def groupCount (n : Nat) : Nat := (n + 4) / 5

/-- The number of real bytes in group `q` of an input of `n` bytes, `min(5, n - 5q)` (R103). -/
def groupSize (n q : Nat) : Nat := min 5 (n - 5 * q)

/-- The eight symbols of group `q` of a buffer (R103). -/
def encodeGroup (buf : List Byte) (q : Nat) : List Byte :=
  let nb := groupSize buf.length q
  (List.range 8).map (encSymbol nb (groupQuantum nb fun k => memRead buf (5 * q + k)))

/-- OUT of ENCODE: the groups in input order (R103). -/
def encodeBytes (buf : List Byte) : List Byte := (List.range (groupCount buf.length)).flatMap (encodeGroup buf)

/-- ENCODE's response (R103). -/
def encodeResponse (r : Request) : Response := Response.buffer (encodeBytes r.input)

/-- ENCQ (R101). -/
def execEncq (nb : BitVec 3) (s : State) : Host.Outcome State Fault Refusal :=
  s.runOp fun p r => guarded p (.encq nb) r (encqResponse nb r)

/-- ENCODE (R103). -/
def execEncode (s : State) : Host.Outcome State Fault Refusal :=
  s.runOp fun p r => guarded p .encode r (encodeResponse r)

end Sys2Proof.Machine
end

