-- ==== Sys2Proof/Machine/Dispatch.lean ====
section
/-! DEFINITION. exec: one arm per constructor of Instr, each one call of that operation's meaning
(spec/70_reset_and_hazards.md R196, "then the rule of the selected OP"). -/

namespace Sys2Proof.Machine

def exec (i : Instr) (s : State) : Host.Outcome State Fault Refusal :=
  match i with
  | .encq nb => Sys2Proof.Machine.execEncq nb s
  | .decq cf last => Sys2Proof.Machine.execDecq cf last s
  | .fwdrd => Sys2Proof.Machine.execFwdrd s
  | .revrd => Sys2Proof.Machine.execRevrd s
  | .encode => Sys2Proof.Machine.execEncode s
  | .decode cf => Sys2Proof.Machine.execDecode cf s
  | .pairrd => Sys2Proof.Machine.execPairrd s

end Sys2Proof.Machine
end

