-- ==== Sys2Proof/Machine/Step.lean ====
section
/-! DEFINITION. One step of the block (spec/70_reset_and_hazards.md R196). -/

namespace Sys2Proof.Machine

/-- Execute: `RSP <- Exec(REQ); PHASE <- RESP`. A word that decodes to no instruction completes with ILLEGAL_COMMAND
(spec/30_encoding.md R66). -/
def State.execute (s : State) : Host.Outcome State Fault Refusal :=
  match s.req with
  | none => .fault .noRequest
  | some r =>
    match Sys2Proof.decode r.cmd with
    | .ok i => exec i s
    | .error _ => .next (s.complete (Response.raise .illegalCommand))

/-- One step: what the host drives in it is consumed, and the step of R196 that is enabled is taken. -/
def step (s : State) : Host.Outcome State Fault Refusal :=
  match s.action with
  | .reset => .next s.tick.resetBlock
  | .accept r => .next (s.tick.accept r)
  | .execute => s.tick.execute
  | .deliver => s.tick.deliver
  | .wait => .next s.tick

/-- `s` with the table word `w` as the captured request's command word, so that the next step executes it (log 14). A table
word that is no command word is placed nowhere (log 18). -/
def State.withFetchWord (s : State) (nbits w : Nat) : State :=
  match Sys2Proof.commandOfTable nbits w with
  | some c => s.placeCommand c
  | none => s

end Sys2Proof.Machine
end

