-- ==== Sys2Proof/Machine/Exec.lean ====
section
/-! DEFINITION. `Exec(REQ)` of spec/70_reset_and_hazards.md R196 as a function of the parameters and the request alone
(spec/20_memory.md R48). The step goes through Machine/Dispatch.lean; Laws/Step.lean shows that it computes this. -/

namespace Sys2Proof.Machine

/-- The rule of each operation, without its legality check. -/
def opResponse (i : Instr) (r : Request) : Response :=
  match i with
  | .encq nb => encqResponse nb r
  | .decq cf last => decqResponse cf last r
  | .fwdrd => fwdrdResponse r
  | .revrd => revrdResponse r
  | .encode => encodeResponse r
  | .decode cf => decodeResponse cf r
  | .pairrd => pairrdResponse r

/-- `Exec(REQ)`: decode the command, then the rule of the selected operation (R196). -/
def respond (p : Params) (r : Request) : Response :=
  match Sys2Proof.decode r.cmd with
  | .ok i => guarded p i r (opResponse i r)
  | .error _ => Response.raise .illegalCommand

end Sys2Proof.Machine
end

