-- ==== Sys2Proof/Machine/HostSide.lean ====
section
/-! DEFINITION. The host wrapper (spec/43_host_interface.md R150 to R157): the two host operations, input normalisation, and
the splitting of inputs longer than MAX_IN_LEN. These functions bind the host, not the block: each issues requests, and the
block's response to a request is `respond` (R48). -/

namespace Sys2Proof.Machine

/-- What a caller hands to the host wrapper (R153). -/
inductive HostValue where
  /-- Text, as a sequence of Unicode code points. -/
  | text (points : List Nat)
  /-- A byte sequence, or any contiguous byte-bearing view. -/
  | bytes (data : List Byte)
  /-- Anything else. -/
  | other
deriving DecidableEq, Repr

/-- The four error kinds a host operation can report (R154). -/
inductive HostError where
  | nonAsciiInput
  | unsupportedInputType
  | paddingError
  | invalidDigit
deriving DecidableEq, Repr

/-- How a host operation ends. -/
inductive HostResult where
  /-- The output bytes. -/
  | done (out : List Byte)
  /-- Exactly one error kind and no data (R154). -/
  | failed (e : HostError)
  /-- `encode` of what is not a byte sequence: no request, no kind (R157). -/
  | refused
  /-- The input is longer than MAX_IN_LEN, and MAX_IN_LEN holds no whole group or quantum to split it by (log 12). -/
  | cannotSplit
  /-- The block answered a status that no request of the wrapper leads to: a host fault, not an error kind (R154). -/
  | hostFault
deriving DecidableEq, Repr

/-- Normalisation to one byte sequence, before any request (R153). -/
def normalise (x : HostValue) : Except HostError (List Byte) :=
  match x with
  | .text points =>
    if points.all (fun c => decide (c < 0x80)) then .ok (points.map (BitVec.ofNat 8)) else .error .nonAsciiInput
  | .bytes data => .ok data
  | .other => .error .unsupportedInputType

/-- The request of `encode(x)`: `CMD = 0x0004, LEN = len(x), IN = x` (R151). -/
def encodeRequest (data : List Byte) : Request := { cmd := 0x0004#16, opw := 0#64, input := data }

/-- The request of `decode(x, casefold)`: `CMD = 0x0005 | (casefold ? 0x0008 : 0)` (R152). -/
def decodeRequest (casefold : Bool) (data : List Byte) : Request :=
  { cmd := 0x0005#16 ||| (if casefold then 0x0008#16 else 0#16), opw := 0#64, input := data }

/-- The host's reading of a response (R151, R152, R154). -/
def hostResult (x : Response) : HostResult :=
  match x.status with
  | .ok => .done x.out
  | .paddingError => .failed .paddingError
  | .invalidDigit => .failed .invalidDigit
  | .nonAsciiInput => .hostFault
  | .unsupportedInputType => .hostFault
  | .illegalCommand => .hostFault

/-- `data` cut into pieces of `k` bytes, the last one of at most `k`; `fuel` bounds the number of cuts. -/
def pieces (k : Nat) (fuel : Nat) (data : List Byte) : List (List Byte) :=
  match fuel with
  | 0 => [data]
  | n + 1 => if data.length ≤ k then [data] else data.take k :: pieces k n (data.drop k)

/-- The outputs of the requests for `parts`, in order, after `out`; the first result that is no success ends it. -/
def collect (issue : List Byte → HostResult) (parts : List (List Byte)) (out : List Byte) : HostResult :=
  match parts with
  | [] => .done out
  | b :: rest =>
    match issue b with
    | .done o => collect issue rest (out ++ o)
    | r => r

/-- One ENCODE request (R151). -/
def issueEncode (p : Params) (data : List Byte) : HostResult := hostResult (respond p (encodeRequest data))

/-- One DECODE request (R152). -/
def issueDecode (p : Params) (casefold : Bool) (data : List Byte) : HostResult :=
  hostResult (respond p (decodeRequest casefold data))

/-- A non-final piece of a split decode: one that ends in `=` is an invalid digit (R156). -/
def issueInnerDecode (p : Params) (casefold : Bool) (data : List Byte) : HostResult :=
  if trailPad data ≠ 0 then .failed .invalidDigit else issueDecode p casefold data

/-- Encode in pieces whose lengths are multiples of 5, except for the last (R156). -/
def splitEncode (p : Params) (data : List Byte) : HostResult :=
  let k := 5 * (p.maxInLen / 5)
  if k = 0 then .cannotSplit else collect (issueEncode p) (pieces k data.length data) []

/-- Decode in pieces whose lengths are multiples of 8: the total length first, then the last piece, then the others (R156). -/
def splitDecode (p : Params) (casefold : Bool) (data : List Byte) : HostResult :=
  let k := 8 * (p.maxInLen / 8)
  if data.length % 8 ≠ 0 then .failed .paddingError
  else if k = 0 then .cannotSplit
  else
    let parts := pieces k data.length data
    match issueDecode p casefold (parts.getLastD []) with
    | .done final =>
      match collect (issueInnerDecode p casefold) parts.dropLast [] with
      | .done out => .done (out ++ final)
      | r => r
    | r => r

/-- Host `encode(x)` (R151, R157). -/
def hostEncode (p : Params) (x : HostValue) : HostResult :=
  match x with
  | .bytes data => if data.length ≤ p.maxInLen then issueEncode p data else splitEncode p data
  | .text _ => .refused
  | .other => .refused

/-- Host `decode(x, casefold = true)` (R152). -/
def hostDecode (p : Params) (x : HostValue) (casefold : Bool := true) : HostResult :=
  match normalise x with
  | .error e => .failed e
  | .ok data => if data.length ≤ p.maxInLen then issueDecode p casefold data else splitDecode p casefold data

end Sys2Proof.Machine
end

