-- ==== Sys2Proof/Safety.lean ====
section
/-! DEFINITION. What the claims speak of: a state about to execute a request, the illegal requests of
spec/30_encoding.md R66 written over the command word's own bits, the invariant of the block, the end of a run, and the
host's script of whole transactions. -/

namespace Sys2Proof.Machine

/-- The next step executes `r`: BUSY with `r` captured, and the host does not assert reset. -/
abbrev State.Executing (s : State) (r : Request) : Prop :=
  s.phase = .busy ∧ s.req = some r ∧ s.hostNow.reset = false

/-- OP of a request (R60), as a number. -/
def opNumber (r : Request) : Nat := r.cmd.toNat % 8

/-- CF of a request (R60). -/
def cfNumber (r : Request) : Nat := r.cmd.toNat / 8 % 2

/-- NB of a request (R60). -/
def nbNumber (r : Request) : Nat := r.cmd.toNat / 16 % 8

/-- LAST of a request (R60). -/
def lastNumber (r : Request) : Nat := r.cmd.toNat / 128 % 2

/-- RSVD of a request (R60). -/
def rsvdNumber (r : Request) : Nat := r.cmd.toNat / 256

/-- R66 (c): a field that R62 requires to be zero for the request's OP is not. CF is free for DECQ and DECODE, NB for ENCQ,
LAST for DECQ. -/
abbrev UnusedFieldSet (r : Request) : Prop :=
  (cfNumber r ≠ 0 ∧ opNumber r ≠ 1 ∧ opNumber r ≠ 5) ∨ (nbNumber r ≠ 0 ∧ opNumber r ≠ 0) ∨
    (lastNumber r ≠ 0 ∧ opNumber r ≠ 1)

/-- A request is illegal when any one of R66 (a) to (f) holds. -/
abbrev IllegalRequest (p : Params) (r : Request) : Prop :=
  opNumber r = 7 ∨ rsvdNumber r ≠ 0 ∨ UnusedFieldSet r ∨
    (opNumber r = 0 ∧ (nbNumber r = 0 ∨ nbNumber r = 6 ∨ nbNumber r = 7)) ∨
    (opNumber r = 6 ∧ p.hasPairRom = false) ∨
    ((opNumber r = 4 ∨ opNumber r = 5) ∧ p.maxInLen < r.len)

/-- A response the block may hold (R24, R67, R172) and that fits its output buffer (spec/00_scope.md R6). -/
def Response.Sound (p : Params) (x : Response) : Prop :=
  x.status.byBlock = true ∧
    (x.status ≠ .ok → x.rw = 0#64 ∧ x.rcnt = 0#3 ∧ x.out = []) ∧
    (x.out ≠ [] → x.rw = 0#64 ∧ x.rcnt = 0#3) ∧
    x.rcnt.toNat ≤ 5 ∧ x.out.length ≤ 8 * ((p.maxInLen + 4) / 5)

/-- The invariant of the block: nothing is held in IDLE (R20), a request and no response in BUSY, and in RESP the request
together with `Exec(REQ)` (R196); every response held or delivered is sound. -/
def State.Inv (s : State) : Prop :=
  (s.phase = .idle → s.req = none ∧ s.rsp = none) ∧
    (s.phase = .busy → s.req.isSome = true ∧ s.rsp = none) ∧
    (s.phase = .resp → ∃ r, s.req = some r ∧ s.rsp = some (respond s.params r)) ∧
    (∀ x, s.rsp = some x → x.Sound s.params) ∧ (∀ x ∈ s.delivered, x.Sound s.params)

/-- The end of a run (R199): IDLE, so that no accepted request is owed a response, and the host offers no further request.
REQ and RSP are unspecified here and the definition does not read them. -/
def State.Ended (s : State) : Prop :=
  s.phase = .idle ∧ ∀ h ∈ s.inputs, h.req = none

/-- The observation of a run (R199): the sequence of responses delivered, in order. -/
def State.observation (s : State) : List Response := s.delivered

/-- `lower(x)` of spec/42_decoder.md R131: the bytes 0x41..0x5A to 0x61..0x7A, every other byte unchanged. -/
def lowerCase (c : Byte) : Byte := if 0x41 ≤ c.toNat ∧ c.toNat ≤ 0x5A then c + 0x20#8 else c

/-- The padding counts that spec/42_decoder.md R121 accepts. -/
def validPadCounts : List Nat := [0, 1, 3, 4, 6]

/-- The command word of DECODE with its CF (R62). -/
def decodeWord (cf : Bool) : Command := if cf then 0x000D#16 else 0x0005#16

/-- The command word of DECQ.last with its CF (R62). -/
def decqLastWord (cf : Bool) : Command := if cf then 0x0089#16 else 0x0081#16

/-- The host's part of whole transactions: offer a request, let it execute, take the response (R155). -/
def transactions (rs : List Request) : List HostInput :=
  rs.flatMap fun r => [HostInput.offer r, HostInput.quiet, HostInput.take]

end Sys2Proof.Machine
end

