-- ==== Sys2Proof/Certificates/Slice0/Obligations.lean ====
section
/-! DEFINITION. The statements for the provers. Each docstring names the rule of spec/ it formalises; a completed
instruction's next state is written out as an update of the state, which is its frame. -/

open Sys2Proof Sys2Proof.Machine

/-! ## The tables (lookup_table_rom) -/

/-- R80, R81: FWD_ROM holds the ASCII codes of the 32 alphabet symbols, index 0 first. -/
def Obligations.FwdRomHoldsTheAlphabet : Prop :=
  (List.range 32).map (fun i => fwdRom (BitVec.ofNat 5 i)) =
    (['0', '1', '2', '3', '4', '5', '6', '7', '8', '9', 'A', 'B', 'C', 'D', 'E', 'F'] ++
      ['G', 'H', 'J', 'K', 'M', 'N', 'P', 'Q', 'R', 'S', 'T', 'V', 'W', 'X', 'Y', 'Z']).map
      (fun c => BitVec.ofNat 8 c.toNat)

/-- R82: REV_ROM's entry of `c = FWD_ROM[i]` is VALID = 1, IDX = i; every other entry is zero. -/
def Obligations.RevRomInvertsFwdRom : Prop :=
  (∀ i : Index, revRom (fwdRom i) = 1#1 ++ i) ∧
    ∀ c : Byte, (∀ i : Index, fwdRom i ≠ c) → revRom c = 0#6

/-- R85 (a) to (e): the table invariants. -/
def Obligations.TableInvariants : Prop :=
  ((∀ i j : Index, fwdRom i = fwdRom j → i = j) ∧
      ∀ c : Byte, revValid (revRom c) = true ↔ ∃ i : Index, fwdRom i = c) ∧
    (∀ i : Index, revValid (revRom (fwdRom i)) = true ∧ revIdx (revRom (fwdRom i)) = i) ∧
    (∀ c : Byte, revValid (revRom c) = true → fwdRom (revIdx (revRom c)) = c) ∧
    ((∀ c : Byte, revValid (revRom c) = true → ¬(0x61 ≤ c.toNat ∧ c.toNat ≤ 0x7A) ∧ c.toNat < 0x80) ∧
      revValid (revRom 0x3D#8) = false) ∧
    ∀ c : Byte, revValid (revRom (fold c)) = true ↔
      (∃ i : Index, fwdRom i = c) ∨
        ∃ i : Index, 0x41 ≤ (fwdRom i).toNat ∧ c.toNat = (fwdRom i).toNat + 0x20

/-- R84: FOLD subtracts 0x20 from 0x61..0x7A and leaves every other byte; it is applied only when CF = 1. -/
def Obligations.FoldMapsLowerCaseLetters : Prop :=
  ∀ c : Byte,
    (0x61 ≤ c.toNat ∧ c.toNat ≤ 0x7A → (fold c).toNat = c.toNat - 0x20) ∧
      (¬(0x61 ≤ c.toNat ∧ c.toNat ≤ 0x7A) → fold c = c) ∧ foldIf true c = fold c ∧ foldIf false c = c

/-! ## Padding tables and packings -/

/-- R100: the encode padding table, and `8 - PADS(nb) = ceil(8*nb/5)` data symbols in every row. -/
def Obligations.EncodePaddingTable : Prop :=
  [1, 2, 3, 4, 5].map pads = [6, 4, 3, 1, 0] ∧
    ∀ nb, 1 ≤ nb → nb ≤ 5 → 8 - pads nb = (8 * nb + 4) / 5

/-- R120, R121: the decode padding table, its formula, its being the inverse of PADS, and the valid counts. -/
def Obligations.DecodePaddingTable : Prop :=
  [0, 1, 3, 4, 6].map leftBytes = [some 5, some 4, some 3, some 2, some 1] ∧
    (∀ p, (leftBytes p).isSome = true ↔ p ∈ validPadCounts) ∧
    (∀ p n, leftBytes p = some n → n = 5 * (8 - p) / 8) ∧
    (∀ nb, 1 ≤ nb → nb ≤ 5 → leftBytes (pads nb) = some nb) ∧
    ∀ p, p < 8 → (p ∉ validPadCounts ↔ p = 2 ∨ p = 5 ∨ p = 7) ∧
      (p ∉ validPadCounts ↔ ∀ nb, 1 ≤ nb → nb ≤ 5 → pads nb ≠ p)

/-- R41, R42: byte `k` of a quantum is bits 39-8k..32-8k, big-endian; the eight symbol indices, most significant first,
make up the quantum. -/
def Obligations.QuantumIsBigEndian : Prop :=
  (∀ (b : Nat → Byte) (k : Nat), k < 5 → (quantumOf b).extractLsb' (32 - 8 * k) 8 = b k) ∧
    (∀ v : Quantum, quantumOf (quantumByte v) = v) ∧
    (∀ (v : Quantum) (j : Nat), j < 8 → symbolIndex v j = v.extractLsb' (35 - 5 * j) 5) ∧
    ∀ v w : Quantum, (∀ j, j < 8 → symbolIndex v j = symbolIndex w j) → v = w

/-- R43: lane `k` of a word of eight bytes is bits 63-8k..56-8k, so lane order is sequence order. -/
def Obligations.WordLanesFollowSequenceOrder : Prop :=
  (∀ (s : Nat → Byte) (k : Nat), k < 8 → (wordOf s).extractLsb' (56 - 8 * k) 8 = s k) ∧
    ∀ w : Sys2Proof.Word, wordOf (wordLane w) = w

/-- R8: `trail(b, 0x3D)` counts exactly the trailing pad bytes. -/
def Obligations.TrailingPadCount : Prop :=
  ∀ b : List Byte,
    trailPad b ≤ b.length ∧ (∀ i, b.length - trailPad b ≤ i → i < b.length → b[i]? = some 0x3D#8) ∧
      (trailPad b < b.length → b[b.length - 1 - trailPad b]? ≠ some 0x3D#8)

/-! ## Command words -/

/-- R61, R62: command words written out from the spec's table decode to the operations they stand for. -/
def Obligations.SpecWordsDecode : Prop :=
  decode 0b0000000000010000#16 = .ok (.encq 1#3) ∧ decode 0b0000000001010000#16 = .ok (.encq 5#3) ∧
    decode 0b0000000000000001#16 = .ok (.decq false false) ∧
    decode 0b0000000010001001#16 = .ok (.decq true true) ∧ decode 0b0000000000000010#16 = .ok .fwdrd ∧
    decode 0b0000000000000011#16 = .ok .revrd ∧ decode 0b0000000000000100#16 = .ok .encode ∧
    decode 0b0000000000001101#16 = .ok (.decode true) ∧ decode 0b0000000000000110#16 = .ok .pairrd

/-- R62: the legal command words, 15 of them when HAS_PAIR_ROM = 1 and 14 when it is 0. -/
def Obligations.LegalCommandWords : Prop :=
  ∀ (p : Params) (w : Command),
    (∃ i, decode w = .ok i ∧ legal p i 0 = true) ↔
      w ∈ [0x0010#16, 0x0020#16, 0x0030#16, 0x0040#16, 0x0050#16, 0x0001#16, 0x0009#16, 0x0081#16, 0x0089#16] ++
          [0x0002#16, 0x0003#16, 0x0004#16, 0x0005#16, 0x000D#16] ∨
        (w = 0x0006#16 ∧ p.hasPairRom = true)

/-- R60 to R62: decoding and encoding agree in both directions, for every instruction and every word: no bit of an encoding
is dropped, and a word the decoder accepts has one reading. That the decoder also reads 0x0000, 0x0060 and 0x0070 as ENCQ with
NB = 0, 6, 7, which a later check refuses, is the model's choice (log 11). -/
def Obligations.DecodeAndEncodeAgree : Prop :=
  ∀ (w : Command) (i : Instr), decode w = .ok i ↔ w = encode i

/-- R66, R70: exactly the illegal requests complete with ILLEGAL_COMMAND, with every result field zero or empty and no state
changed but PHASE and RSP. -/
def Obligations.IllegalRequestsComplete : Prop :=
  ∀ (s : State) (r : Request), s.Executing r →
    (IllegalRequest s.params r →
      step s = .next { s.tick with phase := .resp, rsp := some ⟨.illegalCommand, 0#64, 0#3, []⟩ }) ∧
    (¬IllegalRequest s.params r →
      ∃ x, x.status ≠ .illegalCommand ∧ step s = .next { s.tick with phase := .resp, rsp := some x })

/-! ## FWDRD, REVRD, PAIRRD -/

/-- R86: FWDRD is the word 0x0002 and no other, and reads FWD_ROM at `OPW[4:0]`. -/
def Obligations.FwdrdReadsForwardTable : Prop :=
  (∀ w : Command, decode w = .ok .fwdrd ↔ w = 0x0002#16) ∧
    ∀ (s : State) (r : Request), s.req = some r →
      exec .fwdrd s = .next { s with
        phase := .resp
        rsp := some ⟨.ok, (fwdRom (r.opw.extractLsb' 0 5)).setWidth 64, 0#3, []⟩ }

/-- R87: REVRD is the word 0x0003 and no other, and reads REV_ROM at `OPW[7:0]`, raw: OK even when VALID = 0, no fold. -/
def Obligations.RevrdReadsReverseTable : Prop :=
  (∀ w : Command, decode w = .ok .revrd ↔ w = 0x0003#16) ∧
    ∀ (s : State) (r : Request), s.req = some r →
      exec .revrd s = .next { s with
        phase := .resp
        rsp := some ⟨.ok, (revRom (r.opw.extractLsb' 0 8)).setWidth 64, 0#3, []⟩ }

/-- R83, R88: PAIRRD is the word 0x0006 and no other; with the pair table it reads `FWD_ROM[a[9:5]] ++ FWD_ROM[a[4:0]]` at
`a = OPW[9:0]`, and without it the request is illegal. -/
def Obligations.PairrdReadsPairTable : Prop :=
  (∀ w : Command, decode w = .ok .pairrd ↔ w = 0x0006#16) ∧
    ∀ (s : State) (r : Request), s.req = some r →
      (s.params.hasPairRom = true →
        exec .pairrd s = .next { s with
          phase := .resp
          rsp := some ⟨.ok,
            (fwdRom (r.opw.extractLsb' 5 5) ++ fwdRom (r.opw.extractLsb' 0 5)).setWidth 64, 0#3, []⟩ }) ∧
      (s.params.hasPairRom = false →
        exec .pairrd s = .next { s with phase := .resp, rsp := some ⟨.illegalCommand, 0#64, 0#3, []⟩ })

/-! ## ENCQ, ENCODE -/

/-- R101, R102: ENCQ's words are `0x0010 * NB`; that the decoder gives them for NB = 0, 6, 7 too, which the operation then
refuses, is the model's choice (log 11). With NB in 1..5 it completes OK; symbol `j` of RW is FWD_ROM of the quantum's
index `j` in the first `8 - PADS(nb)` positions and `=` after them, where the group bytes at and beyond NB count as zero
whatever OPW holds. With any other NB the request is illegal (R66 (d)). -/
def Obligations.EncqEncodesOneGroup : Prop :=
  (∀ (w : Command) (nb : BitVec 3), decode w = .ok (.encq nb) ↔ w.toNat = 0x0010 * nb.toNat) ∧
    ∀ (s : State) (r : Request) (nb : BitVec 3), s.req = some r →
      (1 ≤ nb.toNat → nb.toNat ≤ 5 →
        ∃ rw : Sys2Proof.Word,
          exec (.encq nb) s = .next { s with phase := .resp, rsp := some ⟨.ok, rw, 0#3, []⟩ } ∧
          ∃ v : Quantum,
            (∀ k, k < 5 → v.extractLsb' (32 - 8 * k) 8 =
              if k < nb.toNat then r.opw.extractLsb' (32 - 8 * k) 8 else 0#8) ∧
            ∀ j, j < 8 → rw.extractLsb' (56 - 8 * j) 8 =
              if j < 8 - pads nb.toNat then fwdRom (v.extractLsb' (35 - 5 * j) 5) else 0x3D#8) ∧
      (¬(1 ≤ nb.toNat ∧ nb.toNat ≤ 5) →
        exec (.encq nb) s = .next { s with phase := .resp, rsp := some ⟨.illegalCommand, 0#64, 0#3, []⟩ })

/-- R103: ENCODE is the word 0x0004 and no other. Within MAX_IN_LEN it completes OK; OUT is `8 * ceil(LEN/5)` bytes, and its byte `8q + j` is symbol `j` of the
quantum of group `q`; above MAX_IN_LEN the request is illegal. -/
def Obligations.EncodeEncodesWholeBuffer : Prop :=
  (∀ w : Command, decode w = .ok .encode ↔ w = 0x0004#16) ∧
  ∀ (s : State) (r : Request), s.req = some r →
    (r.len ≤ s.params.maxInLen →
      ∃ out : List Byte,
        exec .encode s = .next { s with phase := .resp, rsp := some ⟨.ok, 0#64, 0#3, out⟩ } ∧
        out.length = 8 * ((r.len + 4) / 5) ∧
        ∀ q, q < (r.len + 4) / 5 →
          ∃ v : Quantum,
            (∀ k, k < 5 → v.extractLsb' (32 - 8 * k) 8 =
              if k < min 5 (r.len - 5 * q) then r.input.getD (5 * q + k) 0#8 else 0#8) ∧
            ∀ j, j < 8 → out[8 * q + j]? = some
              (if j < 8 - pads (min 5 (r.len - 5 * q)) then fwdRom (v.extractLsb' (35 - 5 * j) 5) else 0x3D#8)) ∧
    (s.params.maxInLen < r.len →
      exec .encode s = .next { s with phase := .resp, rsp := some ⟨.illegalCommand, 0#64, 0#3, []⟩ })

/-- R104: OUT_LEN of ENCODE, and the number of `=` in its output. -/
def Obligations.EncodeOutputLengthLaw : Prop :=
  ∀ (p : Params) (r : Request), r.cmd = 0x0004#16 → r.len ≤ p.maxInLen →
    (respond p r).outLen = (if r.len = 0 then 0 else 8 * ((r.len + 4) / 5)) ∧
      (respond p r).out.count 0x3D#8 =
        if r.len = 0 then 0 else pads (r.len - 5 * ((r.len + 4) / 5 - 1))

/-- R105: a legal ENCODE or ENCQ always completes with OK; neither ever reports PADDING_ERROR or INVALID_DIGIT; the output of
ENCODE is empty only for an empty input. -/
def Obligations.EncoderNeverFails : Prop :=
  ∀ (p : Params) (r : Request) (i : Instr), decode r.cmd = .ok i → (i = .encode ∨ ∃ nb, i = .encq nb) →
    (¬IllegalRequest p r → (respond p r).status = .ok) ∧
      (respond p r).status ≠ .paddingError ∧ (respond p r).status ≠ .invalidDigit ∧
      (i = .encode → ¬IllegalRequest p r → ((respond p r).out = [] ↔ r.input = []))

/-- R101, R103: the encoder's output holds only alphabet symbols and `=`. -/
def Obligations.EncodeOutputAlphabet : Prop :=
  ∀ (p : Params) (r : Request), r.cmd = 0x0004#16 →
    ∀ c ∈ (respond p r).out, c = 0x3D#8 ∨ ∃ i : Index, fwdRom i = c

/-- R106: splitting the four 10-bit fields gives the eight symbol indices. -/
def Obligations.TenBitFieldsSplitIntoIndices : Prop :=
  ∀ (v : Quantum) (m : Nat), m < 4 →
    (v.extractLsb' (30 - 10 * m) 10).extractLsb' 5 5 = symbolIndex v (2 * m) ∧
      (v.extractLsb' (30 - 10 * m) 10).extractLsb' 0 5 = symbolIndex v (2 * m + 1)

/-- R90: the pair table gives the symbols of the forward table, and no result but PAIRRD's depends on HAS_PAIR_ROM. -/
def Obligations.PairTableIsOptimisationOnly : Prop :=
  (∀ (v : Quantum) (m : Nat), m < 4 →
      pairRom (pairField v m) = fwdRom (symbolIndex v (2 * m)) ++ fwdRom (symbolIndex v (2 * m + 1))) ∧
    ∀ (n : Nat) (r : Request), decode r.cmd ≠ .ok .pairrd → respond ⟨n, true⟩ r = respond ⟨n, false⟩ r

/-- R107: ENCODE of a concatenation whose first part is a multiple of 5 long is the concatenation of the outputs. -/
def Obligations.EncodeConcatenates : Prop :=
  ∀ (p : Params) (opw : Sys2Proof.Word) (a b : List Byte), a.length % 5 = 0 → (a ++ b).length ≤ p.maxInLen →
    (respond p ⟨0x0004#16, opw, a ++ b⟩).out =
      (respond p ⟨0x0004#16, opw, a⟩).out ++ (respond p ⟨0x0004#16, opw, b⟩).out

/-! ## DECQ, DECODE -/

/-- R122, R174: DECQ's errors in their order. With LAST = 1 a trailing pad count outside {0,1,3,4,6} raises PADDING_ERROR
before any lookup; with an accepted count (0 when LAST = 0) a byte in a data position that is no symbol after the fold
raises INVALID_DIGIT. -/
def Obligations.DecqErrorsInOrder : Prop :=
  ∀ (s : State) (r : Request) (cf last : Bool), s.req = some r →
    let c := (List.range 8).map fun j => foldIf cf (r.opw.extractLsb' (56 - 8 * j) 8)
    let p := if last then trailPad c else 0
    (p ∉ validPadCounts →
      exec (.decq cf last) s = .next { s with phase := .resp, rsp := some ⟨.paddingError, 0#64, 0#3, []⟩ }) ∧
    (p ∈ validPadCounts → (∃ x ∈ c.take (8 - p), revValid (revRom x) = false) →
      exec (.decq cf last) s = .next { s with phase := .resp, rsp := some ⟨.invalidDigit, 0#64, 0#3, []⟩ })

/-- R122, R120: DECQ of a quantum with an accepted padding count and only symbols in its data positions completes OK: RCNT is
LEFT(p), the first RCNT bytes of RW[39:0] are those of the quantum whose indices the data symbols give (zero in the pad
positions), and every other bit of RW is zero. -/
def Obligations.DecqDecodesOneQuantum : Prop :=
  ∀ (s : State) (r : Request) (cf last : Bool), s.req = some r →
    let c := (List.range 8).map fun j => foldIf cf (r.opw.extractLsb' (56 - 8 * j) 8)
    let p := if last then trailPad c else 0
    p ∈ validPadCounts → (∀ x ∈ c.take (8 - p), revValid (revRom x) = true) →
      ∃ (rw : Sys2Proof.Word) (v : Quantum),
        exec (.decq cf last) s = .next { s with
          phase := .resp
          rsp := some ⟨.ok, rw, BitVec.ofNat 3 (5 * (8 - p) / 8), []⟩ } ∧
        (∀ j, j < 8 → v.extractLsb' (35 - 5 * j) 5 =
          if j < 8 - p then revIdx (revRom (c.getD j 0#8)) else 0#5) ∧
        rw.extractLsb' 40 24 = 0#24 ∧
        ∀ k, k < 5 → rw.extractLsb' (32 - 8 * k) 8 =
          if k < 5 * (8 - p) / 8 then v.extractLsb' (32 - 8 * k) 8 else 0#8

/-- R123: the source's two-step form (accumulate the data symbols, then shift left by `5 * p`) gives DECQ's bytes, the first
LEFT(p) of them kept and the rest zero. -/
def Obligations.DecqAgreesWithTwoStepForm : Prop :=
  ∀ (last : Bool) (c : List Byte) (w : Quantum) (n : Nat), c.length = 8 → decodeQuantum last c = .ok (w, n) →
    let p := if last then trailPad c else 0
    let acc := (c.take (8 - p)).foldl
      (fun (a : Quantum) x => (a <<< 5) ||| (revIdx (revRom x)).setWidth 40) 0#40
    leftBytes p = some n ∧
      w = quantumOf fun k => if k < n then quantumByte (acc <<< (5 * p)) k else 0#8

/-- R124: a padded final quantum decodes to the same bytes whatever the discarded low bits of its last data symbol are. -/
def Obligations.DiscardedBitsAreAccepted : Prop :=
  ∀ (p : Nat) (front : List Index) (a b : Index), p ∈ [1, 3, 4, 6] → front.length = 7 - p →
    a >>> (5 * (8 - p) - 8 * (5 * (8 - p) / 8)) = b >>> (5 * (8 - p) - 8 * (5 * (8 - p) / 8)) →
    ∃ w, decodeQuantum true (front.map fwdRom ++ [fwdRom a] ++ List.replicate p 0x3D#8) =
          .ok (w, 5 * (8 - p) / 8) ∧
      decodeQuantum true (front.map fwdRom ++ [fwdRom b] ++ List.replicate p 0x3D#8) =
          .ok (w, 5 * (8 - p) / 8)

/-- R125, R173: DECODE's errors in their order: ILLEGAL_COMMAND, length, padding count of the whole buffer, digits. -/
def Obligations.DecodeErrorsInOrder : Prop :=
  ∀ (s : State) (r : Request) (cf : Bool), s.req = some r →
    let c := r.input.map (foldIf cf)
    (s.params.maxInLen < r.len →
      exec (.decode cf) s = .next { s with phase := .resp, rsp := some ⟨.illegalCommand, 0#64, 0#3, []⟩ }) ∧
    (r.len ≤ s.params.maxInLen → (r.len % 8 ≠ 0 ∨ trailPad c ∉ validPadCounts) →
      exec (.decode cf) s = .next { s with phase := .resp, rsp := some ⟨.paddingError, 0#64, 0#3, []⟩ }) ∧
    (r.len ≤ s.params.maxInLen → r.len % 8 = 0 → trailPad c ∈ validPadCounts →
      (∃ x ∈ c.take (r.len - trailPad c), revValid (revRom x) = false) →
      exec (.decode cf) s = .next { s with phase := .resp, rsp := some ⟨.invalidDigit, 0#64, 0#3, []⟩ })

/-- R125, R128: DECODE of a buffer with no error completes OK; OUT holds, quantum by quantum, the bytes of the quanta whose
indices the data symbols give, and is 0 or `5*(LEN/8 - 1) + LEFT(P)` bytes long. -/
def Obligations.DecodeDecodesWholeBuffer : Prop :=
  ∀ (s : State) (r : Request) (cf : Bool), s.req = some r →
    let c := r.input.map (foldIf cf)
    let p := trailPad c
    r.len ≤ s.params.maxInLen → r.len % 8 = 0 → p ∈ validPadCounts →
    (∀ x ∈ c.take (r.len - p), revValid (revRom x) = true) →
      ∃ out : List Byte,
        exec (.decode cf) s = .next { s with phase := .resp, rsp := some ⟨.ok, 0#64, 0#3, out⟩ } ∧
        out.length = (if r.len = 0 then 0 else 5 * (r.len / 8 - 1) + 5 * (8 - p) / 8) ∧
        ∀ q, q < r.len / 8 →
          ∃ v : Quantum,
            (∀ j, j < 8 → v.extractLsb' (35 - 5 * j) 5 =
              if 8 * q + j < r.len - p then revIdx (revRom (c.getD (8 * q + j) 0#8)) else 0#5) ∧
            ∀ k, k < 5 → 5 * q + k < out.length → out[5 * q + k]? = some (v.extractLsb' (32 - 8 * k) 8)

/-- R126: the padding of the whole buffer sits in its last quantum, whose own padding check therefore passes, and every `=`
outside the trailing run makes DECODE fail with INVALID_DIGIT. -/
def Obligations.PaddingSitsInLastQuantum : Prop :=
  ∀ (buf : List Byte) (n : Nat), 1 ≤ n → buf.length = 8 * n → trailPad buf ∈ validPadCounts →
    trailPad ((buf.drop (8 * (n - 1))).take 8) = trailPad buf ∧
      decodeQuantum true ((buf.drop (8 * (n - 1))).take 8) ≠ .error .paddingError ∧
      ∀ (cf : Bool) (i : Nat), i < buf.length - trailPad buf → buf[i]? = some 0x3D#8 →
        decodeBytes cf buf = .error .invalidDigit

/-- R128: the output length of a successful DECODE. -/
def Obligations.DecodeOutputLength : Prop :=
  ∀ (p : Params) (cf : Bool) (r : Request), r.cmd = decodeWord cf → (respond p r).status = .ok →
    ∃ n, leftBytes (trailPad r.input) = some n ∧
      (respond p r).outLen = if r.len = 0 then 0 else 5 * (r.len / 8 - 1) + n

/-- R129: DECODE of eight bytes and DECQ.last of the same bytes agree in STATUS, and on OK in their bytes. -/
def Obligations.DecodeAgreesWithDecqLast : Prop :=
  ∀ (p : Params) (cf : Bool) (opw other : Sys2Proof.Word) (junk : List Byte), 8 ≤ p.maxInLen →
    let whole := respond p ⟨decodeWord cf, other, (List.range 8).map (wordLane opw)⟩
    let quantum := respond p ⟨decqLastWord cf, opw, junk⟩
    whole.status = quantum.status ∧
      (whole.status = .ok →
        whole.out = (List.range quantum.rcnt.toNat).map fun k => quantum.rw.extractLsb' (32 - 8 * k) 8)

/-- R130: the round trip: DECODE of ENCODE's output gives the bytes back, with CF = 0 and with CF = 1. -/
def Obligations.DecodeOfEncodeGivesBytesBack : Prop :=
  ∀ (p : Params) (b : List Byte) (cf : Bool) (opw opw' : Sys2Proof.Word),
    b.length ≤ p.maxInLen → 8 * ((b.length + 4) / 5) ≤ p.maxInLen →
      respond p ⟨decodeWord cf, opw', (respond p ⟨0x0004#16, opw, b⟩).out⟩ = ⟨.ok, 0#64, 0#3, b⟩

/-- R131: with CF = 1 the lower-cased encoding decodes to the same bytes; with CF = 0 it fails with INVALID_DIGIT whenever the
encoding contains a letter, and the encoding itself decodes with either CF. -/
def Obligations.CaseOfEncodedText : Prop :=
  ∀ (p : Params) (b : List Byte) (opw : Sys2Proof.Word),
    b.length ≤ p.maxInLen → 8 * ((b.length + 4) / 5) ≤ p.maxInLen →
      let e := (respond p ⟨0x0004#16, opw, b⟩).out
      respond p ⟨0x000D#16, opw, e.map lowerCase⟩ = ⟨.ok, 0#64, 0#3, b⟩ ∧
        respond p ⟨0x000D#16, opw, e⟩ = ⟨.ok, 0#64, 0#3, b⟩ ∧
        ((∃ c ∈ e, 0x41 ≤ c.toNat ∧ c.toNat ≤ 0x5A) →
          respond p ⟨0x0005#16, opw, e.map lowerCase⟩ = ⟨.invalidDigit, 0#64, 0#3, []⟩) ∧
        respond p ⟨0x0005#16, opw, e⟩ = ⟨.ok, 0#64, 0#3, b⟩

/-! ## Responses -/

/-- R172: on any error every result field is zero or empty. -/
def Obligations.ErrorsCarryNoData : Prop :=
  ∀ (p : Params) (r : Request), (respond p r).status ≠ .ok →
    (respond p r).rw = 0#64 ∧ (respond p r).rcnt = 0#3 ∧ (respond p r).outLen = 0 ∧ (respond p r).out = []

/-- R67: the status codes; the block never produces 3 or 4 (nor 6 or 7), and PADDING_ERROR and INVALID_DIGIT only for DECQ and
DECODE. -/
def Obligations.StatusCodesProduced : Prop :=
  [Status.ok, .paddingError, .invalidDigit, .nonAsciiInput, .unsupportedInputType, .illegalCommand].map Status.code =
      [0#3, 1#3, 2#3, 3#3, 4#3, 5#3] ∧
    ∀ (p : Params) (r : Request),
      (respond p r).status.code ∈ [0#3, 1#3, 2#3, 5#3] ∧
        ((respond p r).status.code = 1#3 ∨ (respond p r).status.code = 2#3 →
          opNumber r = 1 ∨ opNumber r = 5)

/-- R24, R65: RW is zero for ENCODE and DECODE, RCNT is 1..5 for a successful DECQ and 0 otherwise, OUT is empty but for ENCODE
and DECODE, and DECQ's RW[63:40] is zero. -/
def Obligations.UnusedResultFieldsAreZero : Prop :=
  ∀ (p : Params) (r : Request) (i : Instr), decode r.cmd = .ok i →
    ((i = .encode ∨ ∃ cf, i = .decode cf) → (respond p r).rw = 0#64) ∧
      ((respond p r).rcnt ≠ 0#3 ↔ (∃ cf last, i = .decq cf last) ∧ (respond p r).status = .ok) ∧
      (respond p r).rcnt.toNat ≤ 5 ∧
      (¬(i = .encode ∨ ∃ cf, i = .decode cf) → (respond p r).out = []) ∧
      ((∃ cf last, i = .decq cf last) → (respond p r).rw.extractLsb' 40 24 = 0#24)

/-- R63, R64: operand bits an operation does not use never change the response: OPW for the buffer operations, LEN and IN for
the others, `OPW[63:5]` for FWDRD, `OPW[63:8]` for REVRD, `OPW[63:10]` for PAIRRD, and for ENCQ every bit but those of the
first NB group bytes. -/
def Obligations.UnusedOperandBitsAreIgnored : Prop :=
  ∀ (p : Params) (cmd : Command) (w w' : Sys2Proof.Word) (b b' : List Byte) (i : Instr), decode cmd = .ok i →
    ((i = .encode ∨ ∃ cf, i = .decode cf) → respond p ⟨cmd, w, b⟩ = respond p ⟨cmd, w', b⟩) ∧
      ((∃ cf last, i = .decq cf last) → respond p ⟨cmd, w, b⟩ = respond p ⟨cmd, w, b'⟩) ∧
      (i = .fwdrd → w.extractLsb' 0 5 = w'.extractLsb' 0 5 → respond p ⟨cmd, w, b⟩ = respond p ⟨cmd, w', b'⟩) ∧
      (i = .revrd → w.extractLsb' 0 8 = w'.extractLsb' 0 8 → respond p ⟨cmd, w, b⟩ = respond p ⟨cmd, w', b'⟩) ∧
      (i = .pairrd → w.extractLsb' 0 10 = w'.extractLsb' 0 10 → respond p ⟨cmd, w, b⟩ = respond p ⟨cmd, w', b'⟩) ∧
      ∀ nb, i = .encq nb →
        (∀ k, k < nb.toNat → k < 5 → w.extractLsb' (32 - 8 * k) 8 = w'.extractLsb' (32 - 8 * k) 8) →
        respond p ⟨cmd, w, b⟩ = respond p ⟨cmd, w', b'⟩

/-! ## The step relation -/

/-- R196: a step in BUSY with a captured request whose command word decodes to `i` is exec of `i`, after what the host drove
in this step is consumed (the model's input list, log 2); a word that decodes to none completes with ILLEGAL_COMMAND. -/
def Obligations.StepRunsDecodedInstruction : Prop :=
  ∀ (s : State) (r : Request), s.Executing r →
    (∀ i, decode r.cmd = .ok i → step s = exec i { s with inputs := s.inputs.tail }) ∧
      ∀ e, decode r.cmd = .error e →
        step s = .next { s with
          inputs := s.inputs.tail, phase := .resp, rsp := some ⟨.illegalCommand, 0#64, 0#3, []⟩ }

/-- R48 (c), R196: Execute writes `Exec(REQ)`, a function of the request and the instance's parameters alone, and changes
nothing else. -/
def Obligations.ExecuteWritesExecOfRequest : Prop :=
  ∀ (s : State) (r : Request), s.Executing r →
    step s = .next { s with inputs := s.inputs.tail, phase := .resp, rsp := some (respond s.params r) }

/-- R171, R23: every instruction completes on a captured request, and completing changes PHASE and RSP only: REQ, the
parameters, the host's inputs and the responses already delivered stay. -/
def Obligations.InstructionFrame : Prop :=
  ∀ (i : Instr) (s : State),
    (∀ r, s.req = some r → ∃ t, exec i s = .next t) ∧
      ∀ t, exec i s = .next t →
        t.phase = .resp ∧ (∃ x, t.rsp = some x) ∧ t.req = s.req ∧ t.params = s.params ∧
          t.inputs = s.inputs ∧ t.delivered = s.delivered

/-- R25: req_ready and rsp_valid are functions of PHASE; a request is accepted in a step where req_valid and req_ready both
hold, a response is delivered in a step where rsp_valid and rsp_ready both hold (the host not asserting reset, log 10). -/
def Obligations.HandshakeFollowsPhase : Prop :=
  ∀ s : State, (s.reqReady = true ↔ s.phase = .idle) ∧ (s.rspValid = true ↔ s.phase = .resp) ∧
    (s.hostNow.reset = false →
      (∀ r, s.action = .accept r ↔ s.hostNow.req = some r ∧ s.reqReady = true) ∧
        (s.action = .deliver ↔ s.hostNow.rspReady = true ∧ s.rspValid = true))

/-- R196, R49: Accept copies the offered request into REQ and goes to BUSY. -/
def Obligations.AcceptCapturesRequest : Prop :=
  ∀ (s : State) (r : Request), s.phase = .idle → s.hostNow.reset = false → s.hostNow.req = some r →
    step s = .next { s with inputs := s.inputs.tail, phase := .busy, req := some r }

/-- R196, R20: Deliver hands the held response to the host and goes to IDLE; that the model then holds no REQ and no RSP is its
own choice (log 7). -/
def Obligations.DeliverHandsOverResponse : Prop :=
  ∀ (s : State) (x : Response), s.phase = .resp → s.hostNow.reset = false → s.hostNow.rspReady = true →
    s.rsp = some x →
    step s = .next { s with
      inputs := s.inputs.tail, phase := .idle, req := none, rsp := none, delivered := s.delivered ++ [x] }

/-- R190: reset in any phase sets PHASE to IDLE and discards REQ and RSP; that it goes before every other step is the model's
choice (log 10). -/
def Obligations.ResetDiscardsTransaction : Prop :=
  ∀ s : State, s.hostNow.reset = true →
    step s = .next { s with inputs := s.inputs.tail, phase := .idle, req := none, rsp := none }

/-- R194, R196: outside IDLE an offered request has no effect; and where no step is enabled (IDLE without a request, RESP with a
host that takes nothing) the block waits, which is the model's choice of a step (log 9). -/
def Obligations.BlockWaitsForHost : Prop :=
  (∀ (s : State) (h : HostInput) (rest : List HostInput) (o : Option Request), s.phase ≠ .idle →
      step { s with inputs := { h with req := o } :: rest } = step { s with inputs := h :: rest }) ∧
    ∀ s : State, s.hostNow.reset = false →
      (s.phase = .idle ∧ s.hostNow.req = none) ∨ (s.phase = .resp ∧ s.hostNow.rspReady = false) →
      step s = .next { s with inputs := s.inputs.tail }

/-- R30: after reset the block is IDLE with no request and no response, req_ready = 1 and rsp_valid = 0. -/
def Obligations.StateAfterReset : Prop :=
  State.reset.phase = .idle ∧ State.reset.req = none ∧ State.reset.rsp = none ∧
    State.reset.reqReady = true ∧ State.reset.rspValid = false

/-- The invariant holds after reset, whatever the parameters (R30, R20). -/
def Obligations.InvHoldsAfterReset : Prop :=
  (∀ p : Params, (State.resetWith p).Inv) ∧ State.reset.Inv

/-- Every step keeps the invariant: nothing is held in IDLE, BUSY holds a request and no response, RESP holds `Exec(REQ)`, and
every response held or delivered is one the block may produce (R20, R24, R67, R172, R196). -/
def Obligations.StepKeepsInv : Prop :=
  ∀ s t : State, s.Inv → step s = .next t → t.Inv

/-- From every state that meets the invariant the block takes a step: neither model fault and no refusal is reached (R196). -/
def Obligations.InvExcludesStops : Prop :=
  ∀ s : State, s.Inv → ∃ t, step s = .next t

/-- R28, R199: a step never changes the parameters, consumes one host input, and only appends to what was delivered. -/
def Obligations.StepKeepsParamsAndHistory : Prop :=
  ∀ s t : State, step s = .next t →
    t.params = s.params ∧ t.inputs = s.inputs.tail ∧
      (t.delivered = s.delivered ∨ ∃ x, s.rsp = some x ∧ t.delivered = s.delivered ++ [x])

/-- R48 (a) to (c): whole transactions offered one after the other from IDLE are answered one response per request, in order,
each the response to its own request alone, and the run has ended (R199). Three things in it are the model's choices, not the
spec's: that a transaction takes three steps (log 8), that each consumes one host input (log 2), and that REQ and RSP are absent
in the end state and demanded absent at the start (log 7; R199 and U12 say that no claim may read them there). -/
def Obligations.ResponsesInRequestOrder : Prop :=
  ∀ (s : State) (rs : List Request), s.phase = .idle → s.req = none → s.rsp = none → s.inputs = transactions rs →
    let t : State := { s with inputs := [], delivered := s.delivered ++ rs.map (respond s.params) }
    Host.Core.run Sys2Proof.core (3 * rs.length) s = .next t ∧
      t.Ended ∧ t.observation = s.observation ++ rs.map (respond s.params)

/-- R192: a request whose transaction is reset in BUSY or in RESP leaves the block as if it had never been accepted, with no
response, so that offering it again gets the response it would have had. That RESP is reached one step after BUSY (log 8), that
each step consumes one host input (log 2), and that IDLE holds no REQ and no RSP (log 7) are the model's choices. -/
def Obligations.ResetTransactionLeavesNoTrace : Prop :=
  ∀ (s : State) (r : Request) (rest : List HostInput), s.phase = .idle → s.req = none → s.rsp = none →
    (s.inputs = [HostInput.offer r, HostInput.assertReset] ++ rest →
      Host.Core.run Sys2Proof.core 2 s = .next { s with inputs := rest }) ∧
    (s.inputs = [HostInput.offer r, HostInput.quiet, HostInput.assertReset] ++ rest →
      Host.Core.run Sys2Proof.core 3 s = .next { s with inputs := rest })

/-! ## The host wrapper -/

/-- R153, R173 (1): normalisation, before any request: ASCII text becomes bytes, a code point of 0x80 or above fails with
NonAsciiInput, bytes pass unchanged, anything else fails with UnsupportedInputType. -/
def Obligations.HostNormalisesFirst : Prop :=
  ∀ (p : Params) (cf : Bool),
    (∀ points : List Nat, (∀ c ∈ points, c < 0x80) →
      normalise (.text points) = .ok (points.map (BitVec.ofNat 8)) ∧
        hostDecode p (.text points) cf = hostDecode p (.bytes (points.map (BitVec.ofNat 8))) cf) ∧
    (∀ points : List Nat, (∃ c ∈ points, 0x80 ≤ c) →
      hostDecode p (.text points) cf = .failed .nonAsciiInput) ∧
    (∀ data : List Byte, normalise (.bytes data) = .ok data) ∧
    hostDecode p .other cf = .failed .unsupportedInputType

/-- R151, R152: within MAX_IN_LEN the host issues ENCODE (0x0004) and DECODE (0x0005, or 0x000D with casefold) with the input as
IN; both are legal requests. -/
def Obligations.HostRequestsAreLegal : Prop :=
  ∀ (p : Params) (data : List Byte), data.length ≤ p.maxInLen →
    ¬IllegalRequest p (encodeRequest data) ∧ (encodeRequest data).cmd = 0x0004#16 ∧
      (encodeRequest data).input = data ∧
      ∀ cf, ¬IllegalRequest p (decodeRequest cf data) ∧
        (decodeRequest cf data).cmd = (if cf then 0x000D#16 else 0x0005#16) ∧ (decodeRequest cf data).input = data

/-- R154, R157: host decode ends with output bytes or with one of the four kinds, or, where the model gives the host no way to
split (log 12), as cannotSplit: only for a normalised input longer than MAX_IN_LEN with MAX_IN_LEN < 8. Host encode of bytes
never fails, but for an input longer than MAX_IN_LEN with MAX_IN_LEN < 5 (log 12); encode of anything else is refused with no
kind. -/
def Obligations.HostOperationsEndInTheirKinds : Prop :=
  ∀ (p : Params) (cf : Bool),
    (∀ x, (∃ out, hostDecode p x cf = .done out) ∨ (∃ e, hostDecode p x cf = .failed e) ∨
      (hostDecode p x cf = .cannotSplit ∧ p.maxInLen < 8 ∧
        ∃ data, normalise x = .ok data ∧ p.maxInLen < data.length)) ∧
      (∀ data : List Byte, (∃ out, hostEncode p (.bytes data) = .done out) ∨
        (hostEncode p (.bytes data) = .cannotSplit ∧ p.maxInLen < 5 ∧ p.maxInLen < data.length)) ∧
      (∀ points : List Nat, hostEncode p (.text points) = .refused) ∧ hostEncode p .other = .refused

/-- R156: with room for one group, encoding in pieces gives the result of one request for the whole input. -/
def Obligations.HostSplitEncodeAgrees : Prop :=
  ∀ (p : Params) (data : List Byte), 5 ≤ p.maxInLen →
    hostEncode p (.bytes data) =
      .done (respond { p with maxInLen := data.length } (encodeRequest data)).out

/-- R156: with room for one quantum, decoding in pieces, in the order the spec gives the host, ends as one request for the whole
input would: the same output, or the same error kind. -/
def Obligations.HostSplitDecodeAgrees : Prop :=
  ∀ (p : Params) (data : List Byte) (cf : Bool), 8 ≤ p.maxInLen →
    hostDecode p (.bytes data) cf =
      hostResult (respond { p with maxInLen := data.length } (decodeRequest cf data))

/-- R130, R150, R156: host decode gives back what host encode was given, as bytes or as text, at any length. -/
def Obligations.HostRoundTrip : Prop :=
  ∀ (p : Params) (data : List Byte) (cf : Bool), 8 ≤ p.maxInLen →
    ∃ e, hostEncode p (.bytes data) = .done e ∧ hostDecode p (.bytes e) cf = .done data ∧
      hostDecode p (.text (e.map BitVec.toNat)) cf = .done data
end

