-- ==== Sys2Proof/Laws/Codec.lean ====
section
/-! SUPPORT. What each shared operation of the codec units can do: the legality check, the trailing pad count, the padding
tables, the lookup loop, one quantum, the loop over quanta, one group, and the host's cutting of a buffer. -/

namespace Sys2Proof.Machine

open Sys2Proof

/-- The legality check either passes the operation's response on or raises ILLEGAL_COMMAND (R66). -/
theorem guarded_cases (p : Params) (i : Instr) (r : Request) (x : Response) :
    (legal p i r.len = true ∧ guarded p i r x = x) ∨
    (legal p i r.len = false ∧ guarded p i r x = Response.raise .illegalCommand) := by
  cases h : legal p i r.len <;> simp [guarded, h]

@[simp] theorem trailPad_nil : trailPad [] = 0 := rfl

/-- A trailing pad byte counts one more. -/
theorem trailPad_append_pad (b : List Byte) : trailPad (b ++ [padChar]) = trailPad b + 1 := by
  simp [trailPad]

/-- Any other last byte ends the count. -/
theorem trailPad_append_other {x : Byte} (b : List Byte) (h : x ≠ padChar) : trailPad (b ++ [x]) = 0 := by
  simp [trailPad, h]

theorem trailPad_le_length (b : List Byte) : trailPad b ≤ b.length := by
  simpa [trailPad] using (List.takeWhile_sublist (l := b.reverse) (· == padChar)).length_le

/-- A padding count that LEFT accepts is at most 6 and keeps 1 to 5 bytes (R120). -/
theorem leftBytes_bounds {p n : Nat} (h : leftBytes p = some n) : p ≤ 6 ∧ 1 ≤ n ∧ n ≤ 5 := by
  unfold leftBytes at h
  split at h <;> simp at h <;> omega

/-- At least two data symbols stand in a group's quantum (R100). -/
theorem pads_le (nb : Nat) : pads nb ≤ 6 := by
  unfold pads
  split <;> omega

/-- The lookup loop fails with INVALID_DIGIT only (R122). -/
theorem lookupSymbols_error {c : List Byte} {j : Nat} {v : Quantum} {k : Status}
    (h : lookupSymbols c j v = .error k) : k = .invalidDigit ∧ ∃ x ∈ c, revValid (revRom x) = false := by
  induction c generalizing j v with
  | nil => simp [lookupSymbols] at h
  | cons x rest ih =>
    unfold lookupSymbols at h
    split at h
    · obtain ⟨hk, y, hy, hv⟩ := ih h
      exact ⟨hk, y, List.mem_cons_of_mem _ hy, hv⟩
    · next hx => exact ⟨by simpa using h.symm, x, by simp, by simpa using hx⟩

/-- The lookup loop succeeds only on symbols (R122). -/
theorem lookupSymbols_ok {c : List Byte} {j : Nat} {v w : Quantum} (h : lookupSymbols c j v = .ok w) :
    ∀ x ∈ c, revValid (revRom x) = true := by
  induction c generalizing j v with
  | nil => simp
  | cons x rest ih =>
    unfold lookupSymbols at h
    split at h
    · next hx =>
      intro y hy
      rcases List.mem_cons.mp hy with rfl | hy
      · exact hx
      · exact ih h y hy
    · simp at h

/-- One quantum ends in one of three ways: a bad padding count, an invalid digit, or its kept bytes (R122). -/
theorem decodeQuantum_cases (last : Bool) (c : List Byte) :
    let p := if last then trailPad c else 0
    (leftBytes p = none ∧ decodeQuantum last c = .error .paddingError) ∨
    (∃ n, leftBytes p = some n ∧
      ((decodeQuantum last c = .error .invalidDigit ∧ ∃ x ∈ c.take (8 - p), revValid (revRom x) = false) ∨
       ∃ v, lookupSymbols (c.take (8 - p)) 0 0#40 = .ok v ∧
         decodeQuantum last c = .ok (quantumOf (keptByte n v), n))) := by
  intro p
  rcases hp : leftBytes p with _ | n
  · exact .inl ⟨rfl, by unfold decodeQuantum; simp only [show (if last then trailPad c else 0) = p from rfl, hp]⟩
  · refine .inr ⟨n, rfl, ?_⟩
    rcases hl : lookupSymbols (c.take (8 - p)) 0 0#40 with k | v
    · obtain ⟨rfl, hx⟩ := lookupSymbols_error hl
      exact .inl ⟨by unfold decodeQuantum; simp only [show (if last then trailPad c else 0) = p from rfl, hp, hl], hx⟩
    · exact .inr ⟨v, rfl, by unfold decodeQuantum; simp only [show (if last then trailPad c else 0) = p from rfl, hp, hl]⟩

/-- The bytes already decoded stay in front of the rest (R125). -/
theorem decodeQuanta_append (c : List Byte) (count : Nat) (qs : List Nat) (out : List Byte) :
    decodeQuanta c count qs out = (decodeQuanta c count qs []).map (out ++ ·) := by
  induction qs generalizing out with
  | nil => simp [decodeQuanta, Except.map]
  | cons q rest ih =>
    unfold decodeQuanta
    cases decodeQuantum (decide (q + 1 = count)) (quantumAt c q) with
    | error k => rfl
    | ok w =>
      dsimp only
      rw [ih (out ++ _), ih ([] ++ _)]
      cases decodeQuanta c count rest [] <;> simp [Except.map, List.append_assoc]

@[simp] theorem encodeGroup_length (buf : List Byte) (q : Nat) : (encodeGroup buf q).length = 8 := by
  simp [encodeGroup]

/-- A buffer of `n` bytes encodes to eight symbols per group (R103). -/
theorem encodeBytes_length (buf : List Byte) : (encodeBytes buf).length = 8 * groupCount buf.length := by
  simp [encodeBytes, List.length_flatMap, Nat.mul_comm]

/-- Cutting a buffer loses nothing. -/
theorem pieces_flatten (k fuel : Nat) (data : List Byte) : (pieces k fuel data).flatten = data := by
  induction fuel generalizing data with
  | zero => simp [pieces]
  | succ n ih =>
    unfold pieces
    split
    · simp
    · simp [ih, List.take_append_drop]

/-- With fuel for the whole buffer, no piece is longer than `k`. -/
theorem pieces_length_le {k : Nat} (hk : 0 < k) {fuel : Nat} {data : List Byte} (h : data.length ≤ fuel) :
    ∀ b ∈ pieces k fuel data, b.length ≤ k := by
  induction fuel generalizing data with
  | zero => simp [pieces]; omega
  | succ n ih =>
    unfold pieces
    split
    · simpa
    · intro b hb
      rcases List.mem_cons.mp hb with rfl | hb
      · exact List.length_take_le _ _
      · exact ih (by simp; omega) b hb

theorem pieces_ne_nil (k fuel : Nat) (data : List Byte) : pieces k fuel data ≠ [] := by
  cases fuel with
  | zero => simp [pieces]
  | succ n => unfold pieces; split <;> simp

/-- The loop over quanta fails with PADDING_ERROR or INVALID_DIGIT only (R125). -/
theorem decodeQuanta_error {c : List Byte} {count : Nat} {qs : List Nat} {out : List Byte} {k : Status}
    (h : decodeQuanta c count qs out = .error k) : k = .paddingError ∨ k = .invalidDigit := by
  induction qs generalizing out with
  | nil => simp [decodeQuanta] at h
  | cons q rest ih =>
    unfold decodeQuanta at h
    rcases decodeQuantum_cases (decide (q + 1 = count)) (quantumAt c q) with ⟨-, he⟩ | ⟨n, -, ⟨he, -⟩ | ⟨v, -, he⟩⟩ <;>
      rw [he] at h <;> dsimp only at h
    · exact .inl (by simpa using h.symm)
    · exact .inr (by simpa using h.symm)
    · exact ih h

/-- DECODE's body fails with PADDING_ERROR or INVALID_DIGIT only (R125). -/
theorem decodeBytes_error {cf : Bool} {buf : List Byte} {k : Status} (h : decodeBytes cf buf = .error k) :
    k = .paddingError ∨ k = .invalidDigit := by
  unfold decodeBytes at h
  split at h
  · exact .inl (by simpa using h.symm)
  · dsimp only at h
    split at h
    · exact .inl (by simpa using h.symm)
    · exact decodeQuanta_error h

/-- A request whose command decodes and that is legal gets its operation's own response (R196). -/
theorem respond_of_legal {p : Params} {r : Request} {i : Instr} (hd : decode r.cmd = .ok i)
    (hl : legal p i r.len = true) : respond p r = opResponse i r := by
  simp [respond, hd, guarded, hl]

/-- The word of host encode decodes to ENCODE (R151). -/
theorem decode_encodeRequest (data : List Byte) : decode (encodeRequest data).cmd = .ok .encode :=
  show decode 0x0004#16 = .ok .encode from rfl

/-- The word of host decode decodes to DECODE with its CF (R152). -/
theorem decode_decodeRequest (cf : Bool) (data : List Byte) :
    decode (decodeRequest cf data).cmd = .ok (.decode cf) := by
  cases cf
  · exact show decode (0x0005#16 ||| 0#16) = .ok (.decode false) from rfl
  · exact show decode (0x0005#16 ||| 0x0008#16) = .ok (.decode true) from rfl

/-- An ENCODE request within MAX_IN_LEN succeeds (R151). -/
theorem issueEncode_of_le {p : Params} {data : List Byte} (h : data.length ≤ p.maxInLen) :
    issueEncode p data = .done (encodeBytes data) := by
  unfold issueEncode
  rw [respond_of_legal (decode_encodeRequest data) (decide_eq_true h)]
  rfl

/-- A DECODE request within MAX_IN_LEN ends as DECODE's body does (R152, R154). -/
theorem issueDecode_of_le {p : Params} {cf : Bool} {data : List Byte} (h : data.length ≤ p.maxInLen) :
    (∃ out, decodeBytes cf data = .ok out ∧ issueDecode p cf data = .done out) ∨
    (decodeBytes cf data = .error .paddingError ∧ issueDecode p cf data = .failed .paddingError) ∨
    (decodeBytes cf data = .error .invalidDigit ∧ issueDecode p cf data = .failed .invalidDigit) := by
  have hi : issueDecode p cf data = hostResult (decodeResponse cf (decodeRequest cf data)) := by
    unfold issueDecode
    rw [respond_of_legal (decode_decodeRequest cf data) (decide_eq_true h)]
    rfl
  rw [hi, decodeResponse, show (decodeRequest cf data).input = data from rfl]
  rcases hb : decodeBytes cf data with k | out
  · rcases decodeBytes_error hb with rfl | rfl
    · exact .inr (.inl ⟨rfl, rfl⟩)
    · exact .inr (.inr ⟨rfl, rfl⟩)
  · exact .inl ⟨out, rfl, rfl⟩

/-- Collecting outputs that all succeed concatenates them (R156). -/
theorem collect_done {issue : List Byte → HostResult} {f : List Byte → List Byte} {parts : List (List Byte)}
    (h : ∀ b ∈ parts, issue b = .done (f b)) (out : List Byte) :
    collect issue parts out = .done (out ++ parts.flatMap f) := by
  induction parts generalizing out with
  | nil => simp [collect]
  | cons b rest ih =>
    unfold collect
    rw [h b (by simp)]
    dsimp only
    rw [ih (fun x hx => h x (List.mem_cons_of_mem _ hx))]
    simp [List.append_assoc]

end Sys2Proof.Machine
end

