-- ==== Sys2Proof/Laws/PerInstr.lean ====
section
/-! SUPPORT. Statements made per instruction, one lemma per constructor. RowMatch: the command word of an instruction has
the match of its row under the row's mask (spec/30_encoding.md R62). -/

namespace Sys2Proof.Laws.RowMatch

/-- The instruction's word agrees with its row of the opcode table. -/
def Statement (i : Sys2Proof.Instr) : Prop :=
  Sys2Proof.encode i &&& Sys2Proof.rowMask i = Sys2Proof.rowMatch i

theorem encq (nb : BitVec 3) : Statement (.encq nb) := by
  revert nb; unfold Statement; decide

theorem decq (cf last : Bool) : Statement (.decq cf last) := by
  cases cf <;> cases last <;> (unfold Statement; decide)

theorem fwdrd : Statement .fwdrd := by unfold Statement; decide

theorem revrd : Statement .revrd := by unfold Statement; decide

theorem encode : Statement .encode := by unfold Statement; decide

theorem decode (cf : Bool) : Statement (.decode cf) := by
  cases cf <;> (unfold Statement; decide)

theorem pairrd : Statement .pairrd := by unfold Statement; decide

end Sys2Proof.Laws.RowMatch
end

