-- ==== Sys2Proof/Laws/State.lean ====
section
/-! SUPPORT. One lemma per field per update of State. -/

namespace Sys2Proof.Machine

variable (s : State) (x : Response) (r : Request) (c : Sys2Proof.Command) (p : Sys2Proof.Params)

@[simp] theorem complete_phase : (s.complete x).phase = .resp := rfl
@[simp] theorem complete_req : (s.complete x).req = s.req := rfl
@[simp] theorem complete_rsp : (s.complete x).rsp = some x := rfl
@[simp] theorem complete_params : (s.complete x).params = s.params := rfl
@[simp] theorem complete_inputs : (s.complete x).inputs = s.inputs := rfl
@[simp] theorem complete_delivered : (s.complete x).delivered = s.delivered := rfl

@[simp] theorem accept_phase : (s.accept r).phase = .busy := rfl
@[simp] theorem accept_req : (s.accept r).req = some r := rfl
@[simp] theorem accept_rsp : (s.accept r).rsp = s.rsp := rfl
@[simp] theorem accept_params : (s.accept r).params = s.params := rfl
@[simp] theorem accept_inputs : (s.accept r).inputs = s.inputs := rfl
@[simp] theorem accept_delivered : (s.accept r).delivered = s.delivered := rfl

@[simp] theorem resetBlock_phase : s.resetBlock.phase = .idle := rfl
@[simp] theorem resetBlock_req : s.resetBlock.req = none := rfl
@[simp] theorem resetBlock_rsp : s.resetBlock.rsp = none := rfl
@[simp] theorem resetBlock_params : s.resetBlock.params = s.params := rfl
@[simp] theorem resetBlock_inputs : s.resetBlock.inputs = s.inputs := rfl
@[simp] theorem resetBlock_delivered : s.resetBlock.delivered = s.delivered := rfl

@[simp] theorem tick_phase : s.tick.phase = s.phase := rfl
@[simp] theorem tick_req : s.tick.req = s.req := rfl
@[simp] theorem tick_rsp : s.tick.rsp = s.rsp := rfl
@[simp] theorem tick_params : s.tick.params = s.params := rfl
@[simp] theorem tick_inputs : s.tick.inputs = s.inputs.tail := rfl
@[simp] theorem tick_delivered : s.tick.delivered = s.delivered := rfl

@[simp] theorem placeCommand_phase : (s.placeCommand c).phase = .busy := rfl
@[simp] theorem placeCommand_req : (s.placeCommand c).req = some { cmd := c, opw := 0#64, input := [] } := rfl
@[simp] theorem placeCommand_rsp : (s.placeCommand c).rsp = s.rsp := rfl
@[simp] theorem placeCommand_params : (s.placeCommand c).params = s.params := rfl
@[simp] theorem placeCommand_delivered : (s.placeCommand c).delivered = s.delivered := rfl

@[simp] theorem resetWith_phase : (State.resetWith p).phase = .idle := rfl
@[simp] theorem resetWith_req : (State.resetWith p).req = none := rfl
@[simp] theorem resetWith_rsp : (State.resetWith p).rsp = none := rfl
@[simp] theorem resetWith_params : (State.resetWith p).params = p := rfl
@[simp] theorem resetWith_inputs : (State.resetWith p).inputs = [] := rfl
@[simp] theorem resetWith_delivered : (State.resetWith p).delivered = [] := rfl

@[simp] theorem raise_status (k : Status) : (Response.raise k).status = k := rfl
@[simp] theorem raise_rw (k : Status) : (Response.raise k).rw = 0#64 := rfl
@[simp] theorem raise_rcnt (k : Status) : (Response.raise k).rcnt = 0#3 := rfl
@[simp] theorem raise_out (k : Status) : (Response.raise k).out = [] := rfl

@[simp] theorem word_status (w : Sys2Proof.Word) (n : BitVec 3) : (Response.word w n).status = .ok := rfl
@[simp] theorem word_rw (w : Sys2Proof.Word) (n : BitVec 3) : (Response.word w n).rw = w := rfl
@[simp] theorem word_rcnt (w : Sys2Proof.Word) (n : BitVec 3) : (Response.word w n).rcnt = n := rfl
@[simp] theorem word_out (w : Sys2Proof.Word) (n : BitVec 3) : (Response.word w n).out = [] := rfl

@[simp] theorem buffer_status (b : List Sys2Proof.Byte) : (Response.buffer b).status = .ok := rfl
@[simp] theorem buffer_rw (b : List Sys2Proof.Byte) : (Response.buffer b).rw = 0#64 := rfl
@[simp] theorem buffer_rcnt (b : List Sys2Proof.Byte) : (Response.buffer b).rcnt = 0#3 := rfl
@[simp] theorem buffer_out (b : List Sys2Proof.Byte) : (Response.buffer b).out = b := rfl

end Sys2Proof.Machine
end

