-- ==== Sys2Proof/Laws/Step.lean ====
section
/-! SUPPORT. What each shared operation of the sequencer can do, said once: the frame of an operation, the meaning of every
instruction in one equation, Execute, Deliver, and the inversion of one step. -/

namespace Sys2Proof.Machine

/-- An operation on a captured request completes with its response and changes nothing else. -/
theorem runOp_of_req {s : State} {r : Request} (f : Params → Request → Response) (h : s.req = some r) :
    s.runOp f = .next (s.complete (f s.params r)) := by
  simp [State.runOp, h]

/-- Without a captured request an operation faults. -/
theorem runOp_of_no_req {s : State} (f : Params → Request → Response) (h : s.req = none) :
    s.runOp f = .fault .noRequest := by
  simp [State.runOp, h]

/-- Every instruction's meaning is its own operation's frame around its legality check and its rule. -/
theorem exec_runOp (i : Instr) (s : State) :
    exec i s = s.runOp fun p r => guarded p i r (opResponse i r) := by
  cases i <;> rfl

/-- Every instruction completes on a captured request. -/
theorem exec_of_req {s : State} {r : Request} (i : Instr) (h : s.req = some r) :
    exec i s = .next (s.complete (guarded s.params i r (opResponse i r))) := by
  rw [exec_runOp, runOp_of_req _ h]

/-- The inversion of an instruction: if it answers a next state, that state is the completion of a captured request. -/
theorem exec_next {i : Instr} {s t : State} (h : exec i s = .next t) :
    ∃ r, s.req = some r ∧ t = s.complete (guarded s.params i r (opResponse i r)) := by
  rcases hr : s.req with _ | r
  · simp [exec_runOp, State.runOp, hr] at h
  · rw [exec_of_req i hr] at h
    exact ⟨r, rfl, by simpa using h.symm⟩

/-- Execute writes `Exec(REQ)` (R196), whether or not the command decodes. -/
theorem execute_of_req {s : State} {r : Request} (h : s.req = some r) :
    s.execute = .next (s.complete (respond s.params r)) := by
  unfold State.execute respond
  rw [h]
  dsimp only
  cases Sys2Proof.decode r.cmd with
  | error e => rfl
  | ok i => exact exec_of_req i h

/-- Deliver hands the held response over. -/
theorem deliver_of_rsp {s : State} {x : Response} (h : s.rsp = some x) :
    s.deliver =
      .next { s with phase := .idle, req := none, rsp := none, delivered := s.delivered ++ [x] } := by
  simp [State.deliver, h]

/-- The conditions under which each step of R196 is taken. -/
theorem action_cases (s : State) :
    (s.hostNow.reset = true ∧ s.action = .reset) ∨
    (s.hostNow.reset = false ∧ s.phase = .idle ∧ ∃ r, s.hostNow.req = some r ∧ s.action = .accept r) ∨
    (s.hostNow.reset = false ∧ s.phase = .idle ∧ s.hostNow.req = none ∧ s.action = .wait) ∨
    (s.hostNow.reset = false ∧ s.phase = .busy ∧ s.action = .execute) ∨
    (s.hostNow.reset = false ∧ s.phase = .resp ∧ s.hostNow.rspReady = true ∧ s.action = .deliver) ∨
    (s.hostNow.reset = false ∧ s.phase = .resp ∧ s.hostNow.rspReady = false ∧ s.action = .wait) := by
  unfold State.action
  cases hreset : s.hostNow.reset <;> cases hphase : s.phase <;> cases hready : s.hostNow.rspReady <;>
    rcases hreq : s.hostNow.req with _ | r <;> simp

/-- The inversion of one step: every next state is one of these. -/
theorem step_next {s t : State} (h : step s = .next t) :
    t = s.tick.resetBlock ∨
    (∃ r, s.phase = .idle ∧ s.hostNow.req = some r ∧ t = s.tick.accept r) ∨
    (∃ r, s.phase = .busy ∧ s.req = some r ∧ t = s.tick.complete (respond s.params r)) ∨
    (∃ x, s.phase = .resp ∧ s.rsp = some x ∧
      t = { s.tick with phase := .idle, req := none, rsp := none, delivered := s.delivered ++ [x] }) ∨
    (s.phase ≠ .busy ∧ t = s.tick) := by
  unfold step at h
  rcases action_cases s with ⟨-, ha⟩ | ⟨-, hp, r, hr, ha⟩ | ⟨-, hp, -, ha⟩ | ⟨-, hp, ha⟩ | ⟨-, hp, -, ha⟩ |
    ⟨-, hp, -, ha⟩ <;> rw [ha] at h <;> dsimp only at h
  · exact .inl (by simpa using h.symm)
  · exact .inr (.inl ⟨r, hp, hr, by simpa using h.symm⟩)
  · exact .inr (.inr (.inr (.inr ⟨by simp [hp], by simpa using h.symm⟩)))
  · rcases hq : s.req with _ | r
    · simp [State.execute, hq] at h
    · rw [execute_of_req (s := s.tick) hq] at h
      exact .inr (.inr (.inl ⟨r, hp, rfl, by simpa using h.symm⟩))
  · rcases hx : s.rsp with _ | x
    · simp [State.deliver, hx] at h
    · rw [deliver_of_rsp (s := s.tick) hx] at h
      exact .inr (.inr (.inr (.inl ⟨x, hp, rfl, by simpa using h.symm⟩)))
  · exact .inr (.inr (.inr (.inr ⟨by simp [hp], by simpa using h.symm⟩)))

end Sys2Proof.Machine
end

