-- ==== Sys2Proof/WellFormed.lean ====
section
/-! DEFINITION. Which instructions are well formed: the one condition of spec/30_encoding.md R62 on a command word beyond
its match and mask that does not depend on the instance or on the buffer, NB in 1..5 for ENCQ. -/

namespace Sys2Proof

/-- R62: ENCQ needs `NB` in 1..5; every other constructor holds only free fields. -/
def WellFormed (i : Instr) : Bool :=
  match i with
  | .encq nb => decide (1 ≤ nb.toNat) && decide (nb.toNat ≤ 5)
  | .decq _ _ => true
  | .fwdrd => true
  | .revrd => true
  | .encode => true
  | .decode _ => true
  | .pairrd => true

end Sys2Proof
end

