-- ==== Sys2Proof/Tests/Slice0.lean ====
section
/-! SUPPORT. Tests of the model and witnesses for the statements. Every expected value is the spec's: its encoding tables
(spec/30_encoding.md), its ROM images (spec/40_lookup_rom.md) and the vectors of spec/95_test_vectors.md. -/

namespace Sys2Proof.Tests

open Sys2Proof Sys2Proof.Machine

/-! ## Helpers -/

/-- An instance with MAX_IN_LEN = 24 and the pair table. -/
def params : Params := { maxInLen := 24, hasPairRom := true }

/-- The same without the pair table. -/
def noPair : Params := { maxInLen := 24, hasPairRom := false }

/-- The block about to execute `r`. -/
def busyWith (p : Params) (r : Request) : State :=
  { State.resetWith p with phase := .busy, req := some r }

/-- The block holding response `x` to `r`. -/
def respWith (p : Params) (r : Request) (x : Response) : State :=
  { State.resetWith p with phase := .resp, req := some r, rsp := some x }

/-- A request with a command and an operand word. -/
def wordReq (cmd : Command) (opw : Sys2Proof.Word) : Request := { cmd := cmd, opw := opw, input := [] }

/-- A request with a command and a buffer; OPW is junk that must be ignored. -/
def bufReq (cmd : Command) (input : List Byte) : Request := { cmd := cmd, opw := 0x77#64, input := input }

/-- Bytes from numbers. -/
def bytes (l : List Nat) : List Byte := l.map (BitVec.ofNat 8)

/-- The response one step leaves. -/
def answer (o : Host.Outcome State Fault Refusal) : Option Response :=
  match o with
  | .next t => t.rsp
  | .fault _ => none
  | .refused _ => none

/-- One step on a captured request. -/
def run1 (p : Params) (r : Request) : Option Response := answer (step (busyWith p r))

/-- The result fields of an error (R172). -/
def err (k : Status) : Option Response := some { status := k, rw := 0#64, rcnt := 0#3, out := [] }

/-- "abc" (0x61 0x62 0x63). -/
def abc : List Byte := bytes [0x61, 0x62, 0x63]

/-- "C5H66===". -/
def abcText : List Byte := bytes [0x43, 0x35, 0x48, 0x36, 0x36, 0x3D, 0x3D, 0x3D]

/-- "C5=66===". -/
def innerPad : List Byte := bytes [0x43, 0x35, 0x3D, 0x36, 0x36, 0x3D, 0x3D, 0x3D]

/-- "C5H66S==". -/
def badPad : List Byte := bytes [0x43, 0x35, 0x48, 0x36, 0x36, 0x53, 0x3D, 0x3D]

/-! ## WellFormed smoke (R62): NB = 0, 6, 7 are refused -/

theorem test_wellFormed_refuses_bad_nb :
    WellFormed (.encq 0#3) = false ∧ WellFormed (.encq 6#3) = false ∧ WellFormed (.encq 7#3) = false := by decide

theorem test_wellFormed_accepts :
    [Instr.encq 1#3, .encq 5#3, .decq true true, .fwdrd, .revrd, .encode, .decode true, .pairrd].all WellFormed = true := by
  decide

/-! ## Decoding: words written out from R60's pattern `RRRRRRRR L NNN C OOO` -/

theorem test_decode_encq : decode 0b0000000000110000#16 = .ok (.encq 3#3) := by rfl
theorem test_decode_decq : decode 0b0000000010000001#16 = .ok (.decq false true) := by rfl
theorem test_decode_decq_cf : decode 0b0000000000001001#16 = .ok (.decq true false) := by rfl
theorem test_decode_fwdrd : decode 0b0000000000000010#16 = .ok .fwdrd := by rfl
theorem test_decode_revrd : decode 0b0000000000000011#16 = .ok .revrd := by rfl
theorem test_decode_encode : decode 0b0000000000000100#16 = .ok .encode := by rfl
theorem test_decode_decode_cf : decode 0b0000000000001101#16 = .ok (.decode true) := by rfl
theorem test_decode_pairrd : decode 0b0000000000000110#16 = .ok .pairrd := by rfl

/-- spec/95_test_vectors.md L2.6. -/
theorem test_decode_rejects :
    decode 0x0007#16 = .error .reservedOp ∧ decode 0xFFFF#16 = .error .reservedBits ∧
      decode 0x0100#16 = .error .reservedBits ∧ decode 0x000A#16 = .error .unusedField ∧
      decode 0x0083#16 = .error .unusedField ∧ decode 0x0085#16 = .error .unusedField := by
  refine ⟨rfl, rfl, rfl, rfl, rfl, rfl⟩

/-- The table's words through the host's entry. -/
theorem test_decodeTableWord :
    decodeTableWord 16 0x0050 = some (.encq 5#3) ∧ decodeTableWord 16 0x0006 = some .pairrd ∧
      decodeTableWord 16 0x0007 = none := by
  refine ⟨rfl, rfl, rfl⟩

/-! ## The operations: one step each (spec/95_test_vectors.md L1, L2) -/

theorem test_encq_ignores_dirty_bytes :
    run1 params (wordReq 0x0010#16 0x61FFFFFFFF#64) = some ⟨.ok, 0x43343D3D3D3D3D3D#64, 0#3, []⟩ := by decide

theorem test_encq_bad_nb : run1 params (wordReq 0x0060#16 0#64) = err .illegalCommand := by decide

theorem test_decq_discards_bits :
    run1 params (wordReq 0x0081#16 0x43353D3D3D3D3D3D#64) = some ⟨.ok, 0x6100000000#64, 1#3, []⟩ := by decide

theorem test_decq_padding_before_digits :
    run1 params (wordReq 0x0081#16 0x493D3D3D3D3D3D3D#64) = err .paddingError := by decide

theorem test_fwdrd_ignores_high_bits :
    run1 params (wordReq 0x0002#16 0x20#64) = some ⟨.ok, 0x30#64, 0#3, []⟩ := by decide

theorem test_fwdrd_last : run1 params (wordReq 0x0002#16 0x1F#64) = some ⟨.ok, 0x5A#64, 0#3, []⟩ := by decide

theorem test_revrd_valid : run1 params (wordReq 0x0003#16 0x56#64) = some ⟨.ok, 0x3B#64, 0#3, []⟩ := by decide

theorem test_revrd_no_fold : run1 params (wordReq 0x0003#16 0x63#64) = some ⟨.ok, 0#64, 0#3, []⟩ := by decide

theorem test_encode_partial_group :
    run1 params (bufReq 0x0004#16 (bytes [0, 1, 2])) =
      some ⟨.ok, 0#64, 0#3, bytes [0x30, 0x30, 0x30, 0x47, 0x34, 0x3D, 0x3D, 0x3D]⟩ := by decide

theorem test_encode_too_long :
    run1 ⟨2, true⟩ (bufReq 0x0004#16 abc) = err .illegalCommand := by decide

theorem test_decode_folds :
    run1 params (bufReq 0x000D#16 (bytes [0x63, 0x35, 0x68, 0x36, 0x36, 0x3D, 0x3D, 0x3D])) =
      some ⟨.ok, 0#64, 0#3, abc⟩ := by decide

theorem test_decode_count_before_digit :
    run1 params (bufReq 0x0005#16 (bytes [0x49, 0x35, 0x48, 0x36, 0x36, 0x53, 0x33, 0x35] ++ badPad)) =
      err .paddingError := by decide

theorem test_pairrd : run1 params (wordReq 0x0006#16 0x183#64) = some ⟨.ok, 0x4333#64, 0#3, []⟩ := by decide

theorem test_pairrd_absent : run1 noPair (wordReq 0x0006#16 0x183#64) = err .illegalCommand := by decide

theorem test_reserved_op : run1 params (wordReq 0x0007#16 0x6162630000#64) = err .illegalCommand := by decide

/-- The first instruction after reset is the placed one. -/
theorem test_withFetchWord_runs :
    answer (step (State.reset.withFetchWord 16 0x0002)) = some ⟨.ok, 0x30#64, 0#3, []⟩ := by rfl

theorem test_encode_table_runs :
    answer (step (State.reset.withFetchWord 16 0x0050)) = some ⟨.ok, 0x3030303030303030#64, 0#3, []⟩ := by rfl

/-! ## The step relation (spec/95_test_vectors.md L3.5) -/

theorem test_accept :
    step { State.resetWith params with inputs := [HostInput.offer (bufReq 0x0004#16 abc)] } =
      .next (busyWith params (bufReq 0x0004#16 abc)) := by rfl

theorem test_reset_in_busy :
    step { busyWith params (bufReq 0x0004#16 abc) with inputs := [HostInput.assertReset] } =
      .next (State.resetWith params) := by rfl

theorem test_deliver :
    step { respWith params (bufReq 0x0004#16 abc) (Response.buffer abcText) with inputs := [HostInput.take] } =
      .next { State.resetWith params with delivered := [Response.buffer abcText] } := by rfl

/-! ## The host wrapper (spec/43_host_interface.md) -/

theorem test_host_split_decode :
    hostDecode ⟨8, true⟩ (.bytes (abcText ++ abcText)) true = .failed .invalidDigit ∧
      hostDecode ⟨8, true⟩ (.bytes (badPad ++ badPad)) true = .failed .paddingError := by decide

theorem test_host_text : hostDecode params (.text [0x43, 0xE9]) true = .failed .nonAsciiInput := by decide

/-! ## Witnesses: for every statement with hypotheses, values that meet them all, clause by clause -/

theorem witness_RevRomInvertsFwdRom : ∀ i : Index, fwdRom i ≠ 0x49#8 := by decide

theorem witness_TableInvariants :
    fwdRom 31#5 = fwdRom 31#5 ∧ revValid (revRom 0x30#8) = true ∧ revValid (revRom 0x5A#8) = true := by decide

theorem witness_FoldMapsLowerCaseLetters :
    (0x61 ≤ (0x61#8 : Byte).toNat ∧ (0x7A#8 : Byte).toNat ≤ 0x7A) ∧
      ¬(0x61 ≤ (0x60#8 : Byte).toNat) ∧ ¬((0x7B#8 : Byte).toNat ≤ 0x7A) := by decide

theorem witness_EncodePaddingTable : (1 ≤ 1 ∧ 1 ≤ 5) ∧ (1 ≤ 5 ∧ 5 ≤ 5) := by decide

/-- The last byte, symbol, lane and 10-bit field. -/
theorem witness_WordLanesAndFields : 4 < 5 ∧ 7 < 8 ∧ 3 < 4 := by decide

theorem witness_DecodePaddingTable :
    leftBytes 6 = some 1 ∧ (7 < 8 ∧ 7 ∉ validPadCounts) ∧ (0 < 8 ∧ 0 ∈ validPadCounts) := by decide

theorem witness_QuantumIsBigEndian : ∃ v w : Quantum, ∀ j, j < 8 → symbolIndex v j = symbolIndex w j :=
  ⟨0#40, 0#40, fun _ _ => rfl⟩

theorem witness_TrailingPadCount :
    trailPad abcText < abcText.length ∧ abcText.length - trailPad abcText ≤ 7 ∧ 7 < abcText.length := by decide

theorem witness_Executing_legal :
    (busyWith params (wordReq 0x0002#16 0#64)).Executing (wordReq 0x0002#16 0#64) ∧
      ¬IllegalRequest params (wordReq 0x0002#16 0#64) ∧ decode 0x0002#16 = .ok .fwdrd := by
  refine ⟨⟨rfl, rfl, rfl⟩, by decide, rfl⟩

theorem witness_Executing_illegal :
    (busyWith params (wordReq 0x0007#16 0#64)).Executing (wordReq 0x0007#16 0#64) ∧
      IllegalRequest params (wordReq 0x0007#16 0#64) ∧ decode 0x0007#16 = .error .reservedOp := by
  refine ⟨⟨rfl, rfl, rfl⟩, by decide, rfl⟩

/-- One request for each of R66 (a) to (f). -/
theorem witness_IllegalRequest_clauses :
    IllegalRequest params (wordReq 0x0007#16 0#64) ∧ IllegalRequest params (wordReq 0x0102#16 0#64) ∧
      IllegalRequest params (wordReq 0x000A#16 0#64) ∧ IllegalRequest params (wordReq 0x0060#16 0#64) ∧
      IllegalRequest noPair (wordReq 0x0006#16 0#64) ∧ IllegalRequest ⟨2, true⟩ (bufReq 0x0004#16 abc) := by
  refine ⟨?_, ?_, ?_, ?_, ?_, ?_⟩ <;> decide

theorem witness_PairrdReadsPairTable :
    ((busyWith params (wordReq 0x0006#16 0x3FF#64)).req = some (wordReq 0x0006#16 0x3FF#64) ∧
        (busyWith params (wordReq 0x0006#16 0x3FF#64)).params.hasPairRom = true) ∧
      ((busyWith noPair (wordReq 0x0006#16 0x3FF#64)).req = some (wordReq 0x0006#16 0x3FF#64) ∧
        (busyWith noPair (wordReq 0x0006#16 0x3FF#64)).params.hasPairRom = false) := by decide

theorem witness_FwdrdRevrd_request :
    (busyWith params (wordReq 0x0002#16 0x1F#64)).req = some (wordReq 0x0002#16 0x1F#64) := by rfl

theorem witness_EncqEncodesOneGroup :
    (busyWith params (wordReq 0x0010#16 0#64)).req = some (wordReq 0x0010#16 0#64) ∧
      (1 ≤ (1#3).toNat ∧ (1#3).toNat ≤ 5) ∧ (1 ≤ (5#3).toNat ∧ (5#3).toNat ≤ 5) ∧
      ¬(1 ≤ (0#3).toNat) ∧ ¬((6#3).toNat ≤ 5) := by decide

theorem witness_EncodeEncodesWholeBuffer :
    (busyWith ⟨3, true⟩ (bufReq 0x0004#16 abc)).req = some (bufReq 0x0004#16 abc) ∧
      (bufReq 0x0004#16 abc).len ≤ 3 ∧ 0 < ((bufReq 0x0004#16 abc).len + 4) / 5 ∧
      2 < (bufReq 0x0004#16 abc).len := by decide

theorem witness_EncodeOutputLaws :
    (bufReq 0x0004#16 abc).cmd = 0x0004#16 ∧ (bufReq 0x0004#16 abc).len ≤ params.maxInLen := by decide

theorem witness_EncodeOutputAlphabet :
    (bufReq 0x0004#16 abc).cmd = 0x0004#16 ∧ 0x3D#8 ∈ (respond params (bufReq 0x0004#16 abc)).out := by decide

theorem witness_EncoderNeverFails :
    (decode (bufReq 0x0004#16 abc).cmd = .ok .encode ∧ ¬IllegalRequest params (bufReq 0x0004#16 abc)) ∧
      (decode (wordReq 0x0050#16 0#64).cmd = .ok (.encq 5#3) ∧ ¬IllegalRequest params (wordReq 0x0050#16 0#64)) := by
  refine ⟨⟨rfl, by decide⟩, rfl, by decide +kernel⟩

theorem witness_PairTableIsOptimisationOnly : decode (wordReq 0x0002#16 0#64).cmd ≠ .ok .pairrd := by
  show Except.ok Instr.fwdrd ≠ .ok .pairrd
  simp

theorem witness_EncodeConcatenates :
    (bytes [1, 2, 3, 4, 5]).length % 5 = 0 ∧ (bytes [1, 2, 3, 4, 5] ++ abc).length ≤ params.maxInLen := by decide

/-- DECQ.last "C5H66S==": count 2. DECQ "C5H66===": a pad byte in a data position. -/
theorem witness_DecqErrorsInOrder :
    (busyWith params (wordReq 0x0081#16 0x4335483636533D3D#64)).req = some (wordReq 0x0081#16 0x4335483636533D3D#64) ∧
      trailPad (decqSymbols false 0x4335483636533D3D#64) ∉ validPadCounts ∧ 0 ∈ validPadCounts ∧
      (∃ x ∈ (decqSymbols false 0x43354836363D3D3D#64).take (8 - 0), revValid (revRom x) = false) := by
  decide

/-- DECQ.last "C4======" (p = 6) and DECQ "C5H66S35" (p = 0). -/
theorem witness_DecqDecodesOneQuantum :
    (busyWith params (wordReq 0x0081#16 0x43343D3D3D3D3D3D#64)).req = some (wordReq 0x0081#16 0x43343D3D3D3D3D3D#64) ∧
      (trailPad (decqSymbols false 0x43343D3D3D3D3D3D#64) ∈ validPadCounts ∧
        ∀ x ∈ (decqSymbols false 0x43343D3D3D3D3D3D#64).take 2, revValid (revRom x) = true) ∧
      (0 ∈ validPadCounts ∧
        ∀ x ∈ (decqSymbols false 0x4335483636533335#64).take 8, revValid (revRom x) = true) := by
  decide

theorem witness_DecqAgreesWithTwoStepForm :
    abcText.length = 8 ∧ decodeQuantum true abcText = .ok (0x6162630000#40, 3) := by
  refine ⟨rfl, rfl⟩

/-- "C4======" and "C5======"; and p = 1 with 3 discarded bits. -/
theorem witness_DiscardedBitsAreAccepted :
    (6 ∈ [1, 3, 4, 6] ∧ [12#5].length = 7 - 6 ∧
      (4#5 : Index) >>> (5 * (8 - 6) - 8 * (5 * (8 - 6) / 8)) = 5#5 >>> (5 * (8 - 6) - 8 * (5 * (8 - 6) / 8))) ∧
    (1 ∈ [1, 3, 4, 6] ∧ (List.replicate 6 12#5).length = 7 - 1 ∧
      (24#5 : Index) >>> (5 * (8 - 1) - 8 * (5 * (8 - 1) / 8)) = 31#5 >>> (5 * (8 - 1) - 8 * (5 * (8 - 1) / 8))) := by
  decide

/-- Too long; five bytes; "C5H66S=="; "C5=66===". -/
theorem witness_DecodeErrorsInOrder :
    (busyWith ⟨7, true⟩ (bufReq 0x0005#16 abcText)).req = some (bufReq 0x0005#16 abcText) ∧
      7 < (bufReq 0x0005#16 abcText).len ∧ (bufReq 0x0005#16 abc).len % 8 ≠ 0 ∧
      (badPad.length % 8 = 0 ∧ trailPad (badPad.map (foldIf false)) ∉ validPadCounts) ∧
      (innerPad.length ≤ 8 ∧ innerPad.length % 8 = 0 ∧ trailPad (innerPad.map (foldIf false)) ∈ validPadCounts ∧
        ∃ x ∈ (innerPad.map (foldIf false)).take (innerPad.length - trailPad (innerPad.map (foldIf false))),
          revValid (revRom x) = false) := by
  decide

theorem witness_DecodeDecodesWholeBuffer :
    (busyWith ⟨8, true⟩ (bufReq 0x0005#16 abcText)).req = some (bufReq 0x0005#16 abcText) ∧
      abcText.length ≤ 8 ∧ abcText.length % 8 = 0 ∧ trailPad (abcText.map (foldIf false)) ∈ validPadCounts ∧
      (∀ x ∈ (abcText.map (foldIf false)).take (abcText.length - trailPad (abcText.map (foldIf false))),
        revValid (revRom x) = true) ∧ 0 < abcText.length / 8 := by
  decide

theorem witness_PaddingSitsInLastQuantum :
    1 ≤ 1 ∧ innerPad.length = 8 * 1 ∧ trailPad innerPad ∈ validPadCounts ∧
      2 < innerPad.length - trailPad innerPad ∧ innerPad[2]? = some 0x3D#8 := by decide

theorem witness_DecodeOutputLength :
    (bufReq 0x0005#16 abcText).cmd = decodeWord false ∧
      (respond params (bufReq 0x0005#16 abcText)).status = .ok := by decide

theorem witness_DecodeAgreesWithDecqLast :
    8 ≤ params.maxInLen ∧
      (respond params ⟨decodeWord false, 0#64, (List.range 8).map (wordLane 0x43343D3D3D3D3D3D#64)⟩).status = .ok := by
  decide

theorem witness_RoundTrip :
    abc.length ≤ params.maxInLen ∧ 8 * ((abc.length + 4) / 5) ≤ params.maxInLen ∧
      ∃ c ∈ (respond params ⟨0x0004#16, 0#64, abc⟩).out, 0x41 ≤ c.toNat ∧ c.toNat ≤ 0x5A := by decide

theorem witness_ErrorsCarryNoData :
    (respond params (bufReq 0x0005#16 abc)).status ≠ .ok ∧
      (respond params (bufReq 0x0005#16 abc)).status.code = 1#3 := by decide

theorem witness_UnusedResultFieldsAreZero :
    decode (wordReq 0x0081#16 0#64).cmd = .ok (.decq false true) ∧ decode (bufReq 0x0005#16 []).cmd = .ok (.decode false) ∧
      decode (bufReq 0x0004#16 []).cmd = .ok .encode := by
  refine ⟨rfl, rfl, rfl⟩

theorem witness_UnusedOperandBitsAreIgnored :
    decode 0x0004#16 = .ok .encode ∧ decode 0x0001#16 = .ok (.decq false false) ∧
      (decode 0x0002#16 = .ok .fwdrd ∧ (0x20#64).extractLsb' 0 5 = (0x40#64).extractLsb' 0 5) ∧
      (decode 0x0003#16 = .ok .revrd ∧ (0x143#64).extractLsb' 0 8 = (0x43#64).extractLsb' 0 8) ∧
      (decode 0x0006#16 = .ok .pairrd ∧ (0x7FF#64).extractLsb' 0 10 = (0x3FF#64).extractLsb' 0 10) ∧
      (decode 0x0010#16 = .ok (.encq 1#3) ∧ ∀ k, k < 1 → k < 5 →
        (0x61FFFFFFFF#64).extractLsb' (32 - 8 * k) 8 = (0x6100000000#64).extractLsb' (32 - 8 * k) 8) := by
  refine ⟨rfl, rfl, ⟨rfl, rfl⟩, ⟨rfl, rfl⟩, ⟨rfl, rfl⟩, rfl, by decide⟩

theorem witness_InstructionFrame :
    exec .fwdrd (busyWith params (wordReq 0x0002#16 0#64)) =
      .next (respWith params (wordReq 0x0002#16 0#64) (Response.word 0x30#64 0#3)) := by rfl

/-- IDLE with a request offered; RESP with the host ready; reset asserted; IDLE with nothing offered; RESP with a host that takes
nothing. -/
theorem witness_StepRelation :
    let offered : State :=
      { State.resetWith params with inputs := [HostInput.offer (wordReq 0x0002#16 0#64)] }
    let taking : State :=
      { respWith params (wordReq 0x0002#16 0#64) (Response.word 0x30#64 0#3) with inputs := [HostInput.take] }
    (offered.phase = .idle ∧ offered.hostNow.reset = false ∧
        offered.hostNow.req = some (wordReq 0x0002#16 0#64)) ∧
      (taking.phase = .resp ∧ taking.hostNow.reset = false ∧ taking.hostNow.rspReady = true ∧
        taking.rsp = some (Response.word 0x30#64 0#3)) ∧
      ({ taking with inputs := [HostInput.assertReset] } : State).hostNow.reset = true ∧
      ((State.resetWith params).phase = .idle ∧ (State.resetWith params).hostNow.reset = false ∧
        (State.resetWith params).hostNow.req = none) ∧
      ({ taking with inputs := [] } : State).hostNow.rspReady = false ∧ taking.phase ≠ .idle := by
  decide

/-- A state in each phase that meets the invariant, and a step from it. -/
theorem witness_StepKeepsInv :
    (busyWith params (wordReq 0x0002#16 0#64)).Inv ∧
      ∃ t, step (busyWith params (wordReq 0x0002#16 0#64)) = .next t := by
  refine ⟨?_, _, rfl⟩
  simp [State.Inv, busyWith, State.resetWith]

/-- IDLE with the script of one transaction, of one reset in BUSY, and of one reset in RESP. -/
theorem witness_Scripts :
    let s : State := State.resetWith params
    let r := wordReq 0x0002#16 0#64
    (s.phase = .idle ∧ s.req = none ∧ s.rsp = none) ∧
      ({ s with inputs := transactions [r] } : State).inputs = transactions [r] ∧
      ({ s with inputs := [HostInput.offer r, HostInput.assertReset] ++ [] } : State).inputs =
        [HostInput.offer r, HostInput.assertReset] ++ [] ∧
      ({ s with inputs := [HostInput.offer r, HostInput.quiet, HostInput.assertReset] ++ [] } : State).inputs =
        [HostInput.offer r, HostInput.quiet, HostInput.assertReset] ++ [] := by
  decide

theorem witness_HostNormalisesFirst :
    (∀ c ∈ [0x43, 0x7F], c < 0x80) ∧ ∃ c ∈ [0x43, 0x80], 0x80 ≤ c := by decide

theorem witness_HostRequestsAreLegal : abcText.length ≤ params.maxInLen := by decide

theorem witness_HostSplit : 5 ≤ (⟨5, true⟩ : Params).maxInLen ∧ 8 ≤ (⟨8, true⟩ : Params).maxInLen := by decide

end Sys2Proof.Tests
end

section
/-! PROOFS. The statements of 00_scope.md: what `trail(b, 0x3D)` counts (R8), and what every step keeps of the parameters
(R6) and of the delivered responses (R199). -/

namespace Sys2Proof.Machine

open Sys2Proof

/-- The split that R8's count describes, for proofs that need the data part and the padding of a buffer apart. -/
theorem exists_eq_append_replicate_trailPad (b : List Byte) :
    ∃ c, b = c ++ List.replicate (trailPad b) padChar ∧ c.getLast? ≠ some padChar := by
  induction b using List.reverseRecOn with
  | nil => exact ⟨[], by simp⟩
  | append_singleton b x ih =>
    by_cases hx : x = padChar
    · obtain ⟨c, hb, hc⟩ := ih
      refine ⟨c, ?_, hc⟩
      rw [hx, trailPad_append_pad, List.replicate_succ', ← List.append_assoc, ← hb]
    · exact ⟨b ++ [x], by simp [trailPad_append_other b hx], by simpa using hx⟩

/-- R8: what is counted is padding. -/
theorem getElem?_eq_padChar_of_le {b : List Byte} {i : Nat} (hi : b.length - trailPad b ≤ i) (hlt : i < b.length) :
    b[i]? = some padChar := by
  obtain ⟨c, hb, -⟩ := exists_eq_append_replicate_trailPad b
  generalize trailPad b = n at hi hb
  subst hb
  simp only [List.length_append, List.length_replicate] at hi hlt
  rw [List.getElem?_append_right (by omega), List.getElem?_replicate_of_lt (by omega)]

/-- R8: the count stops only at another byte. -/
theorem getElem?_before_trailPad_ne (b : List Byte) (h : trailPad b < b.length) :
    b[b.length - 1 - trailPad b]? ≠ some padChar := by
  obtain ⟨c, hb, hc⟩ := exists_eq_append_replicate_trailPad b
  generalize trailPad b = n at h hb
  subst hb
  simp only [List.length_append, List.length_replicate] at h ⊢
  rwa [List.getElem?_append_left (by omega), show c.length + n - 1 - n = c.length - 1 by omega,
    ← List.getLast?_eq_getElem?]

/-- Settles O9: the buffer splits into a prefix that does not end in a pad byte and its trailing pad bytes. -/
theorem trailingPadCount : Obligations.TrailingPadCount := fun b =>
  ⟨trailPad_le_length b, fun _ => getElem?_eq_padChar_of_le, getElem?_before_trailPad_ne b⟩

/-- Settles O52, by the inversion of one step: only Deliver touches the record, with the response it held. -/
theorem stepKeepsParamsAndHistory : Obligations.StepKeepsParamsAndHistory := by
  intro s t h
  rcases step_next h with rfl | ⟨r, -, -, rfl⟩ | ⟨r, -, -, rfl⟩ | ⟨x, -, hx, rfl⟩ | ⟨-, rfl⟩
  · exact ⟨rfl, rfl, .inl rfl⟩
  · exact ⟨rfl, rfl, .inl rfl⟩
  · exact ⟨rfl, rfl, .inl rfl⟩
  · exact ⟨rfl, rfl, .inr ⟨x, hx, rfl⟩⟩
  · exact ⟨rfl, rfl, .inl rfl⟩

end Sys2Proof.Machine
end

section
/-! PROOFS. The statements of 10_state.md: which result fields an operation leaves zero or empty (R24, R65), the handshake
(R25), and the state after reset (R30) with the invariant it meets (R20). -/

namespace Sys2Proof.Machine

open Sys2Proof

/-- R122: the two ways DECQ answers, an error or one to five bytes. -/
theorem decqResponse_cases (cf last : Bool) (r : Request) :
    (∃ k, k ≠ .ok ∧ decqResponse cf last r = Response.raise k) ∨
    ∃ (v : Quantum) (c : BitVec 3), 1 ≤ c.toNat ∧ c.toNat ≤ 5 ∧
      decqResponse cf last r = Response.word (v.setWidth 64) c := by
  unfold decqResponse
  rcases decodeQuantum_cases last (decqSymbols cf r.opw) with ⟨-, hq⟩ | ⟨n, hn, ⟨hq, -⟩ | ⟨v, -, hq⟩⟩ <;> rw [hq]
  · exact .inl ⟨.paddingError, by simp, rfl⟩
  · exact .inl ⟨.invalidDigit, by simp, rfl⟩
  · obtain ⟨-, hlo, hhi⟩ := leftBytes_bounds hn
    have hc : (BitVec.ofNat 3 n).toNat = n := by rw [BitVec.toNat_ofNat]; omega
    exact .inr ⟨_, BitVec.ofNat 3 n, by omega, by omega, rfl⟩

/-- R125: the two ways DECODE answers, an error or a buffer. -/
theorem decodeResponse_cases (cf : Bool) (r : Request) :
    (∃ k, k ≠ .ok ∧ decodeResponse cf r = Response.raise k) ∨ ∃ out, decodeResponse cf r = Response.buffer out := by
  unfold decodeResponse
  rcases hb : decodeBytes cf r.input with k | out
  · exact .inl ⟨k, by rcases decodeBytes_error hb with rfl | rfl <;> simp, rfl⟩
  · exact .inr ⟨out, rfl⟩

/-- R65: what the response to a decoded command can be: an error, or the success of DECQ, of a buffer operation, or of one
that answers a word alone. -/
theorem respond_cases (p : Params) {r : Request} {i : Instr} (hd : decode r.cmd = .ok i) :
    (∃ k, k ≠ .ok ∧ respond p r = Response.raise k) ∨
    ((∃ cf last, i = .decq cf last) ∧ ∃ (v : Quantum) (c : BitVec 3), 1 ≤ c.toNat ∧ c.toNat ≤ 5 ∧
      respond p r = Response.word (v.setWidth 64) c) ∨
    ((i = .encode ∨ ∃ cf, i = .decode cf) ∧ ∃ out, respond p r = Response.buffer out) ∨
    ((¬∃ cf last, i = .decq cf last) ∧ ¬(i = .encode ∨ ∃ cf, i = .decode cf) ∧
      ∃ w, respond p r = Response.word w 0#3) := by
  have hr : respond p r = guarded p i r (opResponse i r) := by simp [respond, hd]
  rcases guarded_cases p i r (opResponse i r) with ⟨-, hg⟩ | ⟨-, hg⟩ <;> rw [hr, hg]
  · cases i with
    | encq nb => exact .inr (.inr (.inr ⟨by simp, by simp, _, rfl⟩))
    | decq cf last =>
      rcases decqResponse_cases cf last r with he | hok
      · exact .inl he
      · exact .inr (.inl ⟨⟨cf, last, rfl⟩, hok⟩)
    | fwdrd => exact .inr (.inr (.inr ⟨by simp, by simp, _, rfl⟩))
    | revrd => exact .inr (.inr (.inr ⟨by simp, by simp, _, rfl⟩))
    | encode => exact .inr (.inr (.inl ⟨.inl rfl, _, rfl⟩))
    | decode cf =>
      rcases decodeResponse_cases cf r with he | hok
      · exact .inl he
      · exact .inr (.inr (.inl ⟨.inr ⟨cf, rfl⟩, hok⟩))
    | pairrd => exact .inr (.inr (.inr ⟨by simp, by simp, _, rfl⟩))
  · exact .inl ⟨.illegalCommand, by simp, rfl⟩

/-- R65: a quantum fills only the low 40 bits of the result word. -/
theorem extractLsb'_setWidth_quantum (v : Quantum) : (v.setWidth 64).extractLsb' 40 24 = 0#24 := by
  ext j hj
  simp

/-- Settles O38, by what a response can be: an error and each kind of success leave the other fields zero or empty. -/
theorem unusedResultFieldsAreZero : Obligations.UnusedResultFieldsAreZero := by
  intro p r i hd
  rcases respond_cases p hd with ⟨k, hk, hr⟩ | ⟨⟨cf, last, rfl⟩, v, c, hlo, hhi, hr⟩ | ⟨hi, out, hr⟩ |
    ⟨hq, hb, w, hr⟩ <;> rw [hr]
  · simp [hk]
  · have hc : c ≠ 0#3 := by rintro rfl; simp at hlo
    simp [hc, hhi, extractLsb'_setWidth_quantum]
  · rcases hi with rfl | ⟨cf, rfl⟩ <;> simp
  · exact ⟨fun h => absurd h hb, ⟨fun h => absurd rfl h, fun h => absurd h.1 hq⟩, Nat.zero_le _, fun _ => rfl,
      fun h => absurd h hq⟩

theorem reqReady_iff (s : State) : s.reqReady = true ↔ s.phase = .idle := decide_eq_true_iff

theorem rspValid_iff (s : State) : s.rspValid = true ↔ s.phase = .resp := decide_eq_true_iff

/-- R25, R196: when Accept is the step taken. -/
theorem action_eq_accept_iff (s : State) (r : Request) :
    s.action = .accept r ↔ s.hostNow.reset = false ∧ s.phase = .idle ∧ s.hostNow.req = some r := by
  rcases action_cases s with ⟨hs, ha⟩ | ⟨hs, hp, q, hq, ha⟩ | ⟨hs, hp, hq, ha⟩ | ⟨hs, hp, ha⟩ | ⟨hs, hp, -, ha⟩ |
    ⟨hs, hp, -, ha⟩ <;> simp [*]

/-- R25, R196: when Deliver is the step taken. -/
theorem action_eq_deliver_iff (s : State) :
    s.action = .deliver ↔ s.hostNow.reset = false ∧ s.phase = .resp ∧ s.hostNow.rspReady = true := by
  rcases action_cases s with ⟨hs, ha⟩ | ⟨hs, hp, q, -, ha⟩ | ⟨hs, hp, -, ha⟩ | ⟨hs, hp, ha⟩ | ⟨hs, hp, hy, ha⟩ |
    ⟨hs, hp, hy, ha⟩ <;> simp [*]

/-- Settles O43, by the conditions of Accept and Deliver with reset out of the way. -/
theorem handshakeFollowsPhase : Obligations.HandshakeFollowsPhase := by
  refine fun s => ⟨reqReady_iff s, rspValid_iff s, fun hreset => ⟨fun r => ?_, ?_⟩⟩
  · simp [action_eq_accept_iff, reqReady_iff, hreset, and_comm]
  · simp [action_eq_deliver_iff, rspValid_iff, hreset, and_comm]

/-- Settles O48: each value is written out in the reset state, and the handshake is read off its PHASE. -/
theorem stateAfterReset : Obligations.StateAfterReset :=
  ⟨rfl, rfl, rfl, (reqReady_iff _).mpr rfl, rfl⟩

/-- R20, R30: IDLE holds nothing, and nothing was delivered yet. -/
theorem resetWith_inv (p : Params) : (State.resetWith p).Inv :=
  ⟨fun _ => ⟨rfl, rfl⟩, by simp, by simp, by simp, by simp⟩

/-- Settles O49: the reset state of the instance is the one of its own parameters. -/
theorem invHoldsAfterReset : Obligations.InvHoldsAfterReset := ⟨resetWith_inv, resetWith_inv Config.params⟩

end Sys2Proof.Machine
end

section
/-! PROOFS. The statements of 20_memory.md: the bytes and symbol indices of a quantum (R41, R42), the lanes of a word (R43),
and whole transactions answered in order (R48). -/

namespace Sys2Proof.Machine

open Sys2Proof

/-- Fields of `f` bits that cover a word determine it: bit `i` is bit `i % f` of field `i / f`. -/
theorem eq_of_fields_eq {n f m : Nat} {v w : BitVec n} (hf : 0 < f) (hn : n ≤ m * f)
    (h : ∀ j, j < m → v.extractLsb' (f * j) f = w.extractLsb' (f * j) f) : v = w := by
  apply BitVec.eq_of_getLsbD_eq
  intro i hi
  have hbit := congrArg (BitVec.getLsbD · (i % f)) (h (i / f) (Nat.div_lt_of_lt_mul (by rw [Nat.mul_comm f]; omega)))
  simpa [Nat.mod_lt i hf, Nat.div_add_mod] using hbit

/-- R42: the symbol indices of a quantum determine it. -/
theorem eq_of_symbolIndex_eq {v w : Quantum} (h : ∀ j, j < 8 → symbolIndex v j = symbolIndex w j) : v = w := by
  refine eq_of_fields_eq (f := 5) (m := 8) (by decide) (by decide) fun j hj => ?_
  simpa [symbolIndex, show 35 - 5 * (7 - j) = 5 * j by omega] using h (7 - j) (by omega)

/-- R41: the bytes of a quantum determine it. -/
theorem eq_of_quantumByte_eq {v w : Quantum} (h : ∀ k, k < 5 → quantumByte v k = quantumByte w k) : v = w := by
  refine eq_of_fields_eq (f := 8) (m := 5) (by decide) (by decide) fun j hj => ?_
  simpa [quantumByte, show 32 - 8 * (4 - j) = 8 * j by omega] using h (4 - j) (by omega)

/-- R43: the lanes of a word determine it. -/
theorem eq_of_wordLane_eq {v w : Sys2Proof.Word} (h : ∀ k, k < 8 → wordLane v k = wordLane w k) : v = w := by
  refine eq_of_fields_eq (f := 8) (m := 8) (by decide) (by decide) fun j hj => ?_
  simpa [wordLane, show 56 - 8 * (7 - j) = 8 * j by omega] using h (7 - j) (by omega)

/-- R41: byte `k` of the quantum of five bytes is the `k`-th of them. -/
theorem quantumByte_quantumOf (b : Nat → Byte) {k : Nat} (hk : k < 5) : quantumByte (quantumOf b) k = b k := by
  -- The width is written as the sum of the joined widths, which the library's append lemmas match on.
  change BitVec.extractLsb' (n := 8 + 8 + 8 + 8 + 8) _ _ (b 0 ++ b 1 ++ b 2 ++ b 3 ++ b 4) = _
  interval_cases k <;>
    simp (disch := decide) only [BitVec.extractLsb'_append_eq_of_le, BitVec.extractLsb'_append_eq_of_add_le] <;>
    exact BitVec.extractLsb'_eq_self

/-- R43: lane `k` of the word of eight bytes is the `k`-th of them. -/
theorem wordLane_wordOf (s : Nat → Byte) {k : Nat} (hk : k < 8) : wordLane (wordOf s) k = s k := by
  -- As above: the width as a sum.
  change BitVec.extractLsb' (n := 8 + 8 + 8 + 8 + 8 + 8 + 8 + 8) _ _
    (s 0 ++ s 1 ++ s 2 ++ s 3 ++ s 4 ++ s 5 ++ s 6 ++ s 7) = _
  interval_cases k <;>
    simp (disch := decide) only [BitVec.extractLsb'_append_eq_of_le, BitVec.extractLsb'_append_eq_of_add_le] <;>
    exact BitVec.extractLsb'_eq_self

@[simp] theorem quantumOf_quantumByte (v : Quantum) : quantumOf (quantumByte v) = v :=
  eq_of_quantumByte_eq fun _ hk => quantumByte_quantumOf _ hk

@[simp] theorem wordOf_wordLane (w : Sys2Proof.Word) : wordOf (wordLane w) = w :=
  eq_of_wordLane_eq fun _ hk => wordLane_wordOf _ hk

/-- Settles O7: a quantum is read byte by byte from the join, and its fields determine it. -/
theorem quantumIsBigEndian : Obligations.QuantumIsBigEndian :=
  ⟨fun b _ hk => quantumByte_quantumOf b hk, quantumOf_quantumByte, fun _ _ _ => rfl, fun _ _ => eq_of_symbolIndex_eq⟩

/-- Settles O8: a word is read lane by lane from the join, and its lanes determine it. -/
theorem wordLanesFollowSequenceOrder : Obligations.WordLanesFollowSequenceOrder :=
  ⟨fun s _ hk => wordLane_wordOf s hk, wordOf_wordLane⟩

/-- R196: the step that accepts an offered request. -/
theorem step_of_offered {s : State} {r : Request} (hreset : s.hostNow.reset = false) (hphase : s.phase = .idle)
    (hreq : s.hostNow.req = some r) : step s = .next (s.tick.accept r) := by
  simp only [step, (action_eq_accept_iff s r).mpr ⟨hreset, hphase, hreq⟩]

/-- R196: the step that executes a captured request. -/
theorem step_of_executing {s : State} {r : Request} (h : s.Executing r) :
    step s = .next (s.tick.complete (respond s.params r)) := by
  obtain ⟨hphase, hreq, hreset⟩ := h
  have ha : s.action = .execute := by simp [State.action, hreset, hphase]
  simp only [step, ha, execute_of_req (s := s.tick) hreq, tick_params]

/-- R196: the step that delivers the held response. -/
theorem step_of_taken {s : State} {x : Response} (hreset : s.hostNow.reset = false) (hphase : s.phase = .resp)
    (hready : s.hostNow.rspReady = true) (hrsp : s.rsp = some x) :
    step s = .next { s.tick with phase := .idle, req := none, rsp := none, delivered := s.delivered ++ [x] } := by
  simp only [step, (action_eq_deliver_iff s).mpr ⟨hreset, hphase, hready⟩, deliver_of_rsp (s := s.tick) hrsp,
    tick_delivered]

/-- A run whose first step answers goes on from there. -/
theorem run_succ_of_next {M : Host.Core} {s t : M.State} (k : Nat) (h : M.step s = .next t) :
    M.run (k + 1) s = M.run k t := by
  simp [Host.Core.run, h]

/-- R48: one whole transaction from IDLE delivers the response to its request and leaves the block as it was. -/
theorem run_transaction {s : State} {r : Request} {rest : List HostInput} (k : Nat) (hphase : s.phase = .idle)
    (hreq : s.req = none) (hrsp : s.rsp = none)
    (hin : s.inputs = HostInput.offer r :: HostInput.quiet :: HostInput.take :: rest) :
    Host.Core.run Sys2Proof.core (k + 3) s =
      Host.Core.run Sys2Proof.core k
        { s with inputs := rest, delivered := s.delivered ++ [respond s.params r] } := by
  obtain ⟨phase, req, rsp, params, inputs, delivered⟩ := s
  subst hphase hreq hrsp hin
  calc
    _ = Host.Core.run Sys2Proof.core (k + 2) _ := run_succ_of_next _ (step_of_offered rfl rfl rfl)
    _ = Host.Core.run Sys2Proof.core (k + 1) _ := run_succ_of_next _ (step_of_executing ⟨rfl, rfl, rfl⟩)
    _ = _ := run_succ_of_next _ (step_of_taken rfl rfl rfl rfl)

/-- R48: whole transactions from IDLE deliver the responses to their requests in order. -/
theorem run_transactions {s : State} (rs : List Request) (hphase : s.phase = .idle) (hreq : s.req = none)
    (hrsp : s.rsp = none) (hin : s.inputs = transactions rs) :
    Host.Core.run Sys2Proof.core (3 * rs.length) s =
      .next { s with inputs := [], delivered := s.delivered ++ rs.map (respond s.params) } := by
  induction rs generalizing s with
  | nil =>
    have hs : { s with inputs := [], delivered := s.delivered ++ [] } = s := by
      rw [List.append_nil, ← show s.inputs = [] from hin]
    exact congrArg _ hs.symm
  | cons r rs ih =>
    calc
      _ = _ := run_transaction (3 * rs.length) hphase hreq hrsp hin
      _ = _ := ih hphase hreq hrsp rfl
      _ = _ := by simp

/-- Settles O53, by induction on the requests: one transaction after the other, until no input is left. -/
theorem responsesInRequestOrder : Obligations.ResponsesInRequestOrder := fun _ rs hphase hreq hrsp hin =>
  ⟨run_transactions rs hphase hreq hrsp hin, ⟨hphase, by simp⟩, rfl⟩

end Sys2Proof.Machine
end

section
/-! PROOFS. The statements of 30_encoding.md: the command word as the number of its fields (R60), the decoder and the encoder
as inverses (R61, R62), the legal and the illegal requests (R62, R66, R70), the status codes (R67), and the operand bits each
operation reads (R63, R64). -/

namespace Sys2Proof

/-! ## The fields of a command word as numbers (R60) -/

theorem toNat_cmdOp (w : Command) : (cmdOp w).toNat = w.toNat % 8 := by
  simp [cmdOp]

theorem toNat_cmdCf (w : Command) : (cmdCf w).toNat = w.toNat / 8 % 2 :=
  Nat.toNat_testBit w.toNat 3

theorem toNat_cmdNb (w : Command) : (cmdNb w).toNat = w.toNat / 16 % 8 := by
  simp [cmdNb, Nat.shiftRight_eq_div_pow]

theorem toNat_cmdLast (w : Command) : (cmdLast w).toNat = w.toNat / 128 % 2 :=
  Nat.toNat_testBit w.toNat 7

theorem toNat_cmdRsvd (w : Command) : (cmdRsvd w).toNat = w.toNat / 256 := by
  simp only [cmdRsvd, BitVec.extractLsb'_toNat, Nat.shiftRight_eq_div_pow]
  omega

/-- Joined words add up as numbers. -/
theorem toNat_append_eq_add {m n : Nat} (x : BitVec m) (y : BitVec n) :
    (x ++ y).toNat = x.toNat * 2 ^ n + y.toNat := by
  rw [BitVec.toNat_append, ← Nat.shiftLeft_add_eq_or_of_lt y.isLt, Nat.shiftLeft_eq]

/-- R60: the weight of each field in a word whose RSVD is zero. -/
theorem toNat_packCommand (op : BitVec 3) (cf : Bool) (nb : BitVec 3) (last : Bool) :
    (packCommand op cf nb last).toNat = op.toNat + 8 * cf.toNat + 16 * nb.toNat + 128 * last.toNat := by
  simp only [packCommand, toNat_append_eq_add, BitVec.toNat_ofBool, BitVec.toNat_ofNat]
  omega

theorem bool_toNat_inj {a b : Bool} : a.toNat = b.toNat ↔ a = b := by
  cases a <;> cases b <;> simp

/-- R60: a word is put together from fields exactly when it holds them and RSVD is zero. -/
theorem eq_packCommand_iff {w : Command} {op : BitVec 3} {cf : Bool} {nb : BitVec 3} {last : Bool} :
    w = packCommand op cf nb last ↔
      cmdRsvd w = 0#8 ∧ cmdOp w = op ∧ cmdCf w = cf ∧ cmdNb w = nb ∧ cmdLast w = last := by
  have hcf : cf.toNat < 2 := Bool.toNat_lt cf
  have hlast : last.toNat < 2 := Bool.toNat_lt last
  simp only [← BitVec.toNat_inj, ← bool_toNat_inj, toNat_packCommand, toNat_cmdOp, toNat_cmdCf, toNat_cmdNb, toNat_cmdLast,
    toNat_cmdRsvd, BitVec.toNat_ofNat]
  omega

@[simp] theorem cmdOp_packCommand (op : BitVec 3) (cf : Bool) (nb : BitVec 3) (last : Bool) :
    cmdOp (packCommand op cf nb last) = op := (eq_packCommand_iff.mp rfl).2.1

/-! ## Decoding and encoding (R61, R62) -/

/-- R61: the eight values of OP. -/
theorem op_cases (op : BitVec 3) :
    op = 0#3 ∨ op = 1#3 ∨ op = 2#3 ∨ op = 3#3 ∨ op = 4#3 ∨ op = 5#3 ∨ op = 6#3 ∨ op = 7#3 := by
  revert op
  decide

/-- A check of the decoder lets a word pass exactly when its condition for an error does not hold. -/
theorem ite_error_eq_ok_iff {c : Prop} [Decidable c] {e : DecodeError} {x : Except DecodeError Instr} {i : Instr} :
    (if c then .error e else x) = .ok i ↔ ¬c ∧ x = .ok i := by
  by_cases hc : c <;> simp [hc]

/-- R62's table: what the decoder reads from the fields of a word, row by row. -/
theorem decode_eq_ok_iff_row {w : Command} {i : Instr} :
    decode w = .ok i ↔ cmdRsvd w = 0#8 ∧
      ((cmdOp w = 0#3 ∧ cmdCf w = false ∧ cmdLast w = false ∧ .encq (cmdNb w) = i) ∨
       (cmdOp w = 1#3 ∧ cmdNb w = 0#3 ∧ .decq (cmdCf w) (cmdLast w) = i) ∨
       (cmdOp w = 2#3 ∧ cmdCf w = false ∧ cmdLast w = false ∧ cmdNb w = 0#3 ∧ .fwdrd = i) ∨
       (cmdOp w = 3#3 ∧ cmdCf w = false ∧ cmdLast w = false ∧ cmdNb w = 0#3 ∧ .revrd = i) ∨
       (cmdOp w = 4#3 ∧ cmdCf w = false ∧ cmdLast w = false ∧ cmdNb w = 0#3 ∧ .encode = i) ∨
       (cmdOp w = 5#3 ∧ cmdLast w = false ∧ cmdNb w = 0#3 ∧ .decode (cmdCf w) = i) ∨
       (cmdOp w = 6#3 ∧ cmdCf w = false ∧ cmdLast w = false ∧ cmdNb w = 0#3 ∧ .pairrd = i)) := by
  rw [decode, ite_error_eq_ok_iff, not_not]
  refine and_congr_right fun _ => ?_
  rcases op_cases (cmdOp w) with h | h | h | h | h | h | h | h <;>
    simp [h, ite_error_eq_ok_iff, and_assoc, -ite_not, -Classical.ite_not]

/-- R60 to R62: a word decodes to an instruction exactly when it is the instruction's encoding. -/
theorem decode_eq_ok_iff {w : Command} {i : Instr} : decode w = .ok i ↔ w = encode i := by
  rw [decode_eq_ok_iff_row]
  cases i <;> simp [encode, eq_packCommand_iff, and_assoc, and_comm, and_left_comm]

/-- Settles O12: R62's table of the decoder, read against the fields of each encoding. -/
theorem decodeAndEncodeAgree : Obligations.DecodeAndEncodeAgree := fun _ _ => decode_eq_ok_iff

end Sys2Proof

namespace Sys2Proof.Machine

open Sys2Proof

/-! ## Legal and illegal requests (R66) -/

theorem opNumber_eq (r : Request) : opNumber r = (cmdOp r.cmd).toNat := (toNat_cmdOp _).symm
theorem cfNumber_eq (r : Request) : cfNumber r = (cmdCf r.cmd).toNat := (toNat_cmdCf _).symm
theorem nbNumber_eq (r : Request) : nbNumber r = (cmdNb r.cmd).toNat := (toNat_cmdNb _).symm
theorem lastNumber_eq (r : Request) : lastNumber r = (cmdLast r.cmd).toNat := (toNat_cmdLast _).symm
theorem rsvdNumber_eq (r : Request) : rsvdNumber r = (cmdRsvd r.cmd).toNat := (toNat_cmdRsvd _).symm

/-- R66 (d): NB in 1..5 leaves out 0, 6 and 7. -/
theorem nbInRange_iff (nb : BitVec 3) : nbInRange nb = true ↔ nb ≠ 0#3 ∧ nb.toNat ≠ 6 ∧ nb.toNat ≠ 7 := by
  revert nb
  decide

theorem toNat_eq_zero_iff {n : Nat} (x : BitVec n) : x.toNat = 0 ↔ x = 0#n := BitVec.toNat_inj (y := 0#n)

/-- R66: the legal requests are those whose command decodes and passes the legality check. -/
theorem not_illegalRequest_iff (p : Params) (r : Request) :
    ¬IllegalRequest p r ↔ ∃ i, decode r.cmd = .ok i ∧ legal p i r.len = true := by
  unfold IllegalRequest UnusedFieldSet
  simp only [decode_eq_ok_iff_row, opNumber_eq, cfNumber_eq, nbNumber_eq, lastNumber_eq, rsvdNumber_eq]
  rcases op_cases (cmdOp r.cmd) with h | h | h | h | h | h | h | h <;>
    simp [h, legal, nbInRange_iff, toNat_eq_zero_iff, and_assoc, and_comm, and_left_comm]

/-- R196: a request gets its operation's own response when it is legal, and ILLEGAL_COMMAND when it is not. -/
theorem respond_legal_cases (p : Params) (r : Request) :
    (¬IllegalRequest p r ∧ ∃ i, decode r.cmd = .ok i ∧ respond p r = opResponse i r) ∨
    (IllegalRequest p r ∧ respond p r = Response.raise .illegalCommand) := by
  by_cases h : IllegalRequest p r
  · refine .inr ⟨h, ?_⟩
    unfold respond
    split
    · next i hd =>
      exact ((guarded_cases p i r _).resolve_left fun ⟨hl, _⟩ => (not_illegalRequest_iff p r).mpr ⟨i, hd, hl⟩ h).2
    · rfl
  · obtain ⟨i, hd, hl⟩ := (not_illegalRequest_iff p r).mp h
    exact .inl ⟨h, i, hd, respond_of_legal hd hl⟩

/-! ## The legal command words (R62) -/

/-- The instructions that are legal with an empty buffer whatever the parameters (`legal_empty_iff`), in the order of R62. -/
def alwaysLegalInstrs : List Instr :=
  [.encq 1#3, .encq 2#3, .encq 3#3, .encq 4#3, .encq 5#3, .decq false false, .decq true false, .decq false true,
    .decq true true, .fwdrd, .revrd, .encode, .decode false, .decode true]

theorem nbInRange_iff_mem (nb : BitVec 3) : nbInRange nb = true ↔ .encq nb ∈ alwaysLegalInstrs := by
  revert nb
  decide

/-- R62: what is legal with an empty buffer; PAIRRD alone depends on the instance. -/
theorem legal_empty_iff (p : Params) (i : Instr) :
    legal p i 0 = true ↔ i ∈ alwaysLegalInstrs ∨ i = .pairrd ∧ p.hasPairRom = true := by
  cases i with
  | encq nb => simpa [legal] using nbInRange_iff_mem nb
  | decq cf last => cases cf <;> cases last <;> simp [legal, alwaysLegalInstrs]
  | decode cf => cases cf <;> simp [legal, alwaysLegalInstrs]
  | _ => simp [legal, alwaysLegalInstrs]

/-- Settles O11: the words of the table are the encodings of the instructions that are legal with an empty buffer. -/
theorem legalCommandWords : Obligations.LegalCommandWords := by
  intro p w
  calc (∃ i, decode w = .ok i ∧ legal p i 0 = true)
    _ ↔ ∃ i, (i ∈ alwaysLegalInstrs ∨ i = .pairrd ∧ p.hasPairRom = true) ∧ encode i = w :=
      exists_congr fun i => by rw [decode_eq_ok_iff, legal_empty_iff, and_comm, @eq_comm _ w]
    _ ↔ w ∈ alwaysLegalInstrs.map encode ∨ p.hasPairRom = true ∧ encode .pairrd = w := by
      simp only [or_and_right, exists_or, List.mem_map, and_assoc, exists_eq_left]
    _ ↔ _ := or_congr_right (and_comm.trans (and_congr_left fun _ => eq_comm))

/-- Settles O10: each of the words is the encoding of its operation. -/
theorem specWordsDecode : Obligations.SpecWordsDecode := by
  unfold Obligations.SpecWordsDecode
  simp only [decode_eq_ok_iff]
  decide

/-! ## How requests complete (R66, R67) -/

/-- R67: how DECQ can end. -/
theorem decqResponse_status (cf last : Bool) (r : Request) :
    (decqResponse cf last r).status = .ok ∨ (decqResponse cf last r).status = .paddingError ∨
      (decqResponse cf last r).status = .invalidDigit := by
  unfold decqResponse
  rcases decodeQuantum_cases last (decqSymbols cf r.opw) with ⟨-, hq⟩ | ⟨n, -, ⟨hq, -⟩ | ⟨v, -, hq⟩⟩ <;> simp [hq]

/-- R67: how DECODE can end. -/
theorem decodeResponse_status (cf : Bool) (r : Request) :
    (decodeResponse cf r).status = .ok ∨ (decodeResponse cf r).status = .paddingError ∨
      (decodeResponse cf r).status = .invalidDigit := by
  unfold decodeResponse
  rcases hb : decodeBytes cf r.input with k | out
  · rcases decodeBytes_error hb with rfl | rfl <;> simp
  · simp

/-- R67: how an operation can end; the two data errors are DECQ's and DECODE's. -/
theorem opResponse_status_cases (i : Instr) (r : Request) :
    (opResponse i r).status = .ok ∨
    (((∃ cf last, i = .decq cf last) ∨ ∃ cf, i = .decode cf) ∧
      ((opResponse i r).status = .paddingError ∨ (opResponse i r).status = .invalidDigit)) := by
  cases i with
  | decq cf last => exact (decqResponse_status cf last r).imp_right (⟨.inl ⟨cf, last, rfl⟩, ·⟩)
  | decode cf => exact (decodeResponse_status cf r).imp_right (⟨.inr ⟨cf, rfl⟩, ·⟩)
  | _ => exact .inl rfl

/-- Settles O13: Execute writes the response to the request, which is ILLEGAL_COMMAND exactly for an illegal one;
`tick` is the host input of this step, consumed (log 2). -/
theorem illegalRequestsComplete : Obligations.IllegalRequestsComplete := by
  intro s r h
  rw [step_of_executing h]
  rcases respond_legal_cases s.params r with ⟨hl, i, -, hr⟩ | ⟨hl, hr⟩ <;> rw [hr]
  · refine ⟨fun hi => absurd hi hl, fun _ => ⟨_, ?_, rfl⟩⟩
    rcases opResponse_status_cases i r with hs | ⟨-, hs | hs⟩ <;> simp [hs]
  · exact ⟨fun _ => rfl, fun hi => absurd hl hi⟩

/-- Settles O37: an illegal request gets code 5, and an operation ends with 0, or with 1 or 2 where its OP is 1 or 5. -/
theorem statusCodesProduced : Obligations.StatusCodesProduced := by
  refine ⟨rfl, fun p r => ?_⟩
  rcases respond_legal_cases p r with ⟨-, i, hd, hr⟩ | ⟨-, hr⟩ <;> rw [hr]
  · rcases opResponse_status_cases i r with hs | ⟨hi, hs⟩
    · simp [hs, Status.code]
    · have hop : opNumber r = 1 ∨ opNumber r = 5 := by
        rw [opNumber_eq, decode_eq_ok_iff.mp hd]
        rcases hi with ⟨cf, last, rfl⟩ | ⟨cf, rfl⟩ <;> simp [encode]
      rcases hs with hs | hs <;> simp [hs, Status.code, hop]
  · simp [Status.code]

/-! ## The operand bits an operation reads (R63, R64) -/

/-- Two requests of one command word get one response when the legality check and the rule cannot tell them apart. -/
theorem respond_congr {p : Params} {r r' : Request} {i : Instr} (hd : decode r.cmd = .ok i) (hc : r'.cmd = r.cmd)
    (hl : legal p i r.len = legal p i r'.len) (ho : opResponse i r = opResponse i r') : respond p r = respond p r' := by
  simp only [respond, hc, hd, guarded, hl, ho]

/-- R102: a group's quantum depends on the group's real bytes only. -/
theorem groupQuantum_congr {nb : Nat} {g g' : Nat → Byte} (h : ∀ k, k < nb → k < 5 → g k = g' k) :
    groupQuantum nb g = groupQuantum nb g' := by
  refine eq_of_quantumByte_eq fun k hk => ?_
  simp only [groupQuantum, quantumByte_quantumOf _ hk, zeroBeyond]
  split
  · next hnb => exact h k hnb hk
  · rfl

/-- Settles O39, operation by operation: the legality check and the rule read the operand only through the bits named. -/
theorem unusedOperandBitsAreIgnored : Obligations.UnusedOperandBitsAreIgnored := by
  intro p cmd w w' b b' i hd
  refine ⟨?_, ?_, ?_, ?_, ?_, ?_⟩
  · rintro (rfl | ⟨cf, rfl⟩) <;> exact respond_congr hd rfl rfl rfl
  · rintro ⟨cf, last, rfl⟩
    exact respond_congr hd rfl rfl rfl
  · rintro rfl hw
    exact respond_congr hd rfl rfl (by simp only [opResponse, fwdrdResponse, fwdOperand, hw])
  · rintro rfl hw
    exact respond_congr hd rfl rfl (by simp only [opResponse, revrdResponse, revOperand, hw])
  · rintro rfl hw
    exact respond_congr hd rfl rfl (by simp only [opResponse, pairrdResponse, pairOperand, hw])
  · rintro nb rfl hw
    have hg : groupQuantum nb.toNat (groupByte w) = groupQuantum nb.toNat (groupByte w') := groupQuantum_congr hw
    exact respond_congr hd rfl rfl (by simp only [opResponse, encqResponse, hg])

end Sys2Proof.Machine
end

section
/-! PROOFS. The statements of 40_lookup_rom.md: the forward and the reverse table as inverses (R81, R82, R85), the fold (R84),
the pair table (R83, R90), and the three operations that read a table (R86 to R88). -/

namespace Sys2Proof.Machine

open Sys2Proof

/-! ## The tables and the fold (R81 to R85) -/

/-- Settles O1: the image is written out in the order of the alphabet. -/
theorem fwdRomHoldsTheAlphabet : Obligations.FwdRomHoldsTheAlphabet := by
  unfold Obligations.FwdRomHoldsTheAlphabet
  decide

@[simp] theorem revValid_one_append (i : Index) : revValid (1#1 ++ i) = true := by
  revert i
  decide

@[simp] theorem revIdx_one_append (i : Index) : revIdx (1#1 ++ i) = i := by
  revert i
  decide

/-- R82: the entry of an alphabet symbol. -/
@[simp] theorem revRom_fwdRom (i : Index) : revRom (fwdRom i) = 1#1 ++ i := by
  revert i
  decide

/-- R82, over the rows of the image: an entry is zero or that of the symbol it names. -/
theorem revRom_eq_zero_or_fwdRom_revIdx (c : Byte) : revRom c = 0#6 ∨ fwdRom (revIdx (revRom c)) = c := by
  revert c
  decide

/-- R85 (c): a valid entry names the byte it stands at. -/
theorem fwdRom_revIdx_of_valid {c : Byte} (h : revValid (revRom c) = true) : fwdRom (revIdx (revRom c)) = c :=
  (revRom_eq_zero_or_fwdRom_revIdx c).resolve_left fun h0 => by simp [h0, revValid] at h

/-- R85 (a): the valid bytes are the alphabet symbols. -/
theorem revValid_revRom_iff (c : Byte) : revValid (revRom c) = true ↔ ∃ i : Index, fwdRom i = c := by
  constructor
  · exact fun h => ⟨_, fwdRom_revIdx_of_valid h⟩
  · rintro ⟨i, rfl⟩
    simp

theorem fwdRom_injective : Function.Injective fwdRom := fun i j h => by
  simpa using congrArg (fun c => revIdx (revRom c)) h

/-- Settles O2: an entry that is not zero names the byte it stands at. -/
theorem revRomInvertsFwdRom : Obligations.RevRomInvertsFwdRom :=
  ⟨revRom_fwdRom, fun c h => (revRom_eq_zero_or_fwdRom_revIdx c).resolve_right (h _)⟩

/-- R85 (d): the alphabet ends at `Z`. -/
theorem toNat_fwdRom_le (i : Index) : (fwdRom i).toNat ≤ 0x5A := by
  revert i
  decide

/-- R84: what the fold does to a lower-case letter. -/
theorem toNat_fold_of_lower {c : Byte} (h : 0x61 ≤ c.toNat ∧ c.toNat ≤ 0x7A) : (fold c).toNat = c.toNat - 0x20 := by
  rw [fold, if_pos h, BitVec.toNat_sub_of_le (BitVec.le_def.mpr (Nat.le_trans (by decide) h.1))]
  rfl

/-- R84: what the fold does to every other byte. -/
theorem fold_of_not_lower {c : Byte} (h : ¬(0x61 ≤ c.toNat ∧ c.toNat ≤ 0x7A)) : fold c = c := if_neg h

/-- Settles O4: the two branches of the fold, and of its use under CF. -/
theorem foldMapsLowerCaseLetters : Obligations.FoldMapsLowerCaseLetters := fun _ =>
  ⟨toNat_fold_of_lower, fold_of_not_lower, rfl, rfl⟩

/-- R85 (e), symbol by symbol: a byte folds to a symbol that is the byte itself or, for a letter, its upper-case form. -/
theorem fold_eq_fwdRom_iff (i : Index) (c : Byte) :
    fwdRom i = fold c ↔ fwdRom i = c ∨ (0x41 ≤ (fwdRom i).toNat ∧ c.toNat = (fwdRom i).toNat + 0x20) := by
  have hi := toNat_fwdRom_le i
  by_cases h : 0x61 ≤ c.toNat ∧ c.toNat ≤ 0x7A
  · rw [← BitVec.toNat_inj, ← BitVec.toNat_inj, toNat_fold_of_lower h]
    omega
  · rw [fold_of_not_lower h]
    exact (or_iff_left (by omega)).symm

/-- Settles O3, from the two tables being inverses; the bytes of (d) lie above the alphabet. -/
theorem tableInvariants : Obligations.TableInvariants := by
  refine ⟨⟨fun _ _ h => fwdRom_injective h, revValid_revRom_iff⟩, fun i => by simp, fun _ => fwdRom_revIdx_of_valid,
    ⟨fun c h => ?_, rfl⟩, fun c => ?_⟩
  · obtain ⟨i, rfl⟩ := (revValid_revRom_iff c).mp h
    have hi := toNat_fwdRom_le i
    omega
  · simp only [revValid_revRom_iff, fold_eq_fwdRom_iff, exists_or]

/-! ## The pair table (R83, R90) -/

/-- A field of a field is a field of the word. -/
theorem extractLsb'_extractLsb' {n : Nat} (x : BitVec n) {a k b l : Nat} (h : b + l ≤ k) :
    (x.extractLsb' a k).extractLsb' b l = x.extractLsb' (a + b) l := by
  ext j hj
  simp [show b + j < k by omega, Nat.add_assoc]

/-- R106: the upper half of a 10-bit field. -/
theorem pairField_high (v : Quantum) {m : Nat} (hm : m < 4) :
    (pairField v m).extractLsb' 5 5 = symbolIndex v (2 * m) := by
  rw [pairField, extractLsb'_extractLsb' _ (by decide), symbolIndex, show 30 - 10 * m + 5 = 35 - 5 * (2 * m) by omega]

/-- R106: the lower half of a 10-bit field. -/
theorem pairField_low (v : Quantum) (m : Nat) : (pairField v m).extractLsb' 0 5 = symbolIndex v (2 * m + 1) := by
  rw [pairField, extractLsb'_extractLsb' _ (by decide), symbolIndex, show 30 - 10 * m + 0 = 35 - 5 * (2 * m + 1) by omega]

/-- R83: the pair table at the operand of PAIRRD. -/
theorem pairRom_pairOperand (opw : Sys2Proof.Word) :
    pairRom (pairOperand opw) = fwdRom (opw.extractLsb' 5 5) ++ fwdRom (opw.extractLsb' 0 5) := by
  rw [pairRom, pairOperand, extractLsb'_extractLsb' _ (by decide), extractLsb'_extractLsb' _ (by decide)]

/-- R66 (e): PAIRRD alone is checked against HAS_PAIR_ROM. -/
theorem legal_congr_of_ne_pairrd {p p' : Params} {i : Instr} (hi : i ≠ .pairrd) (hp : p.maxInLen = p'.maxInLen)
    (n : Nat) : legal p i n = legal p' i n := by
  cases i with
  | pairrd => exact absurd rfl hi
  | _ => simp [legal, hp]

/-- Settles O23: the halves of a field are symbol indices, and HAS_PAIR_ROM enters a response by the legality check only. -/
theorem pairTableIsOptimisationOnly : Obligations.PairTableIsOptimisationOnly := by
  refine ⟨fun v m hm => by rw [pairRom, pairField_high v hm, pairField_low], fun n r hne => ?_⟩
  unfold respond
  cases hd : decode r.cmd with
  | error e => rfl
  | ok i =>
    have hi : i ≠ .pairrd := fun h => hne (by rw [hd, h])
    simp only [guarded, legal_congr_of_ne_pairrd (p := ⟨n, true⟩) (p' := ⟨n, false⟩) hi rfl]

/-! ## FWDRD, REVRD, PAIRRD (R86 to R88) -/

/-- R66, R196: a legal instruction completes with its own response. -/
theorem exec_of_legal {s : State} {r : Request} {i : Instr} (h : s.req = some r)
    (hl : legal s.params i r.len = true) : exec i s = .next (s.complete (opResponse i r)) := by
  rw [exec_of_req i h, guarded, if_pos hl]

/-- R66: an illegal instruction completes with ILLEGAL_COMMAND. -/
theorem exec_of_not_legal {s : State} {r : Request} {i : Instr} (h : s.req = some r)
    (hl : legal s.params i r.len = false) : exec i s = .next (s.complete (Response.raise .illegalCommand)) := by
  rw [exec_of_req i h, guarded, hl, if_neg Bool.false_ne_true]

/-- Settles O14: the word is FWDRD's encoding, and FWDRD is legal on every request. -/
theorem fwdrdReadsForwardTable : Obligations.FwdrdReadsForwardTable :=
  ⟨fun _ => decode_eq_ok_iff, fun _ _ h => exec_of_legal h rfl⟩

/-- Settles O15: the word is REVRD's encoding, and REVRD is legal on every request. -/
theorem revrdReadsReverseTable : Obligations.RevrdReadsReverseTable :=
  ⟨fun _ => decode_eq_ok_iff, fun _ _ h => exec_of_legal h rfl⟩

/-- Settles O16: the word is PAIRRD's encoding, and PAIRRD is legal exactly with the pair table. -/
theorem pairrdReadsPairTable : Obligations.PairrdReadsPairTable := by
  refine ⟨fun _ => decode_eq_ok_iff, fun s r h => ⟨fun hp => ?_, fun hp => exec_of_not_legal h hp⟩⟩
  rw [← pairRom_pairOperand]
  exact exec_of_legal h hp

end Sys2Proof.Machine
end

section
/-! PROOFS. The statements of 41_encoder.md: the padding table (R100), ENCQ (R101, R102), ENCODE of a whole buffer with its
length, padding and alphabet (R103 to R105), the 10-bit fields (R106), and concatenation (R107). -/

namespace Sys2Proof.Machine

open Sys2Proof

/-! ## One group (R100 to R102, R106) -/

/-- R100: the data symbols are as many as the real bits need. -/
theorem eight_sub_pads {nb : Nat} (hlo : 1 ≤ nb) (hhi : nb ≤ 5) : 8 - pads nb = (8 * nb + 4) / 5 := by
  interval_cases nb <;> rfl

/-- Settles O5: the rows of the table, one by one. -/
theorem encodePaddingTable : Obligations.EncodePaddingTable := ⟨rfl, fun _ => eight_sub_pads⟩

/-- Settles O22: the halves of each field are symbol indices. -/
theorem tenBitFieldsSplitIntoIndices : Obligations.TenBitFieldsSplitIntoIndices := fun v m hm =>
  ⟨pairField_high v hm, pairField_low v m⟩

/-- R101, R102: the bytes of a group's quantum. -/
theorem quantumByte_groupQuantum (nb : Nat) (g : Nat → Byte) {k : Nat} (hk : k < 5) :
    quantumByte (groupQuantum nb g) k = if k < nb then g k else 0#8 :=
  quantumByte_quantumOf (zeroBeyond nb g) hk

/-- R62: the words of ENCQ. -/
theorem decode_eq_encq_iff (w : Command) (nb : BitVec 3) : decode w = .ok (.encq nb) ↔ w.toNat = 0x0010 * nb.toNat := by
  rw [decode_eq_ok_iff, ← BitVec.toNat_inj, encode, toNat_packCommand]
  simp

/-- R66 (d): the legality of ENCQ. -/
theorem legal_encq_iff (p : Params) (nb : BitVec 3) (len : Nat) :
    legal p (.encq nb) len = true ↔ 1 ≤ nb.toNat ∧ nb.toNat ≤ 5 := by
  simp [legal, nbInRange]

/-- Settles O17: the lanes of RW are the symbols of the group's quantum, whose bytes are the group's. -/
theorem encqEncodesOneGroup : Obligations.EncqEncodesOneGroup := by
  refine ⟨decode_eq_encq_iff, fun s r nb h => ⟨fun hlo hhi => ?_, fun hnb => ?_⟩⟩
  · exact ⟨_, exec_of_legal h ((legal_encq_iff _ _ _).mpr ⟨hlo, hhi⟩), groupQuantum nb.toNat (groupByte r.opw),
      fun _ hk => quantumByte_groupQuantum _ _ hk, fun _ hj => wordLane_wordOf _ hj⟩
  · exact exec_of_not_legal h (Bool.eq_false_iff.mpr ((legal_encq_iff _ _ _).not.mpr hnb))

/-! ## A whole buffer (R103) -/

/-- Lists of one length `k`, joined: element `j` of the `q`-th stands at `k * q + j`. -/
theorem getElem?_flatMap_of_length_eq {α β : Type} {f : α → List β} {k : Nat} (hf : ∀ a, (f a).length = k)
    (l : List α) {q j : Nat} (hq : q < l.length) (hj : j < k) : (l.flatMap f)[k * q + j]? = (f l[q])[j]? := by
  induction l generalizing q with
  | nil => simp at hq
  | cons a l ih =>
    cases q with
    | zero => simp [List.getElem?_append_left (hj.trans_eq (hf a).symm)]
    | succ q =>
      rw [List.flatMap_cons, List.getElem?_append_right (by rw [hf, Nat.mul_succ]; omega), hf,
        show k * (q + 1) + j - k = k * q + j by rw [Nat.mul_succ]; omega, ih (Nat.lt_of_succ_lt_succ hq),
        List.getElem_cons_succ]

/-- R103: where the symbols of a group stand in the output. -/
theorem getElem?_encodeBytes (buf : List Byte) {q j : Nat} (hq : q < groupCount buf.length) (hj : j < 8) :
    (encodeBytes buf)[8 * q + j]? = (encodeGroup buf q)[j]? := by
  rw [encodeBytes, getElem?_flatMap_of_length_eq (encodeGroup_length buf) _ (by simpa using hq) hj, List.getElem_range]

/-- R103: symbol `j` of a group. -/
theorem getElem?_encodeGroup (buf : List Byte) (q : Nat) {j : Nat} (hj : j < 8) :
    (encodeGroup buf q)[j]? = some (encSymbol (groupSize buf.length q)
      (groupQuantum (groupSize buf.length q) fun k => memRead buf (5 * q + k)) j) := by
  rw [encodeGroup, List.getElem?_map, List.getElem?_range hj, Option.map_some]

/-- Settles O18: OUT is read symbol by symbol from its groups, whose quanta hold the buffer's bytes. -/
theorem encodeEncodesWholeBuffer : Obligations.EncodeEncodesWholeBuffer := by
  refine ⟨fun _ => decode_eq_ok_iff, fun s r h => ⟨fun hle => ?_, fun hlt => ?_⟩⟩
  · refine ⟨_, exec_of_legal h (decide_eq_true hle), encodeBytes_length r.input, fun q hq => ?_⟩
    exact ⟨_, fun _ hk => quantumByte_groupQuantum _ _ hk,
      fun _ hj => (getElem?_encodeBytes r.input hq hj).trans (getElem?_encodeGroup r.input q hj)⟩
  · exact exec_of_not_legal h (decide_eq_false (Nat.not_le.mpr hlt))

/-- R103: an input byte makes a group. -/
theorem encodeBytes_eq_nil_iff (buf : List Byte) : encodeBytes buf = [] ↔ buf = [] := by
  rw [← List.length_eq_zero_iff, encodeBytes_length, ← List.length_eq_zero_iff, groupCount]
  omega

/-- R103: what a legal ENCODE answers. -/
theorem respond_encode_of_le {p : Params} {r : Request} (hc : r.cmd = 0x0004#16) (hl : r.len ≤ p.maxInLen) :
    respond p r = Response.buffer (encodeBytes r.input) :=
  respond_of_legal (i := .encode) (decode_eq_ok_iff.mpr hc) (decide_eq_true hl)

theorem out_encode_of_le {p : Params} (opw : Sys2Proof.Word) {b : List Byte} (hl : b.length ≤ p.maxInLen) :
    (respond p ⟨0x0004#16, opw, b⟩).out = encodeBytes b :=
  congrArg Response.out (respond_encode_of_le (r := ⟨0x0004#16, opw, b⟩) rfl hl)

/-! ## Padding and alphabet of the output (R104, R105) -/

/-- R101: the eight symbols of a quantum are its data symbols and then the padding. -/
theorem map_encSymbol_range (nb : Nat) (v : Quantum) :
    (List.range 8).map (encSymbol nb v) =
      (List.range (8 - pads nb)).map (fun j => fwdRom (symbolIndex v j)) ++ List.replicate (pads nb) padChar := by
  have hp := pads_le nb
  conv_lhs => rw [show 8 = 8 - pads nb + pads nb by omega, List.range_add, List.map_append, List.map_map]
  congr 1
  · exact List.map_congr_left fun j hj => if_pos (List.mem_range.mp hj)
  · refine List.eq_replicate_iff.mpr ⟨by simp, fun c hc => ?_⟩
    obtain ⟨j, -, rfl⟩ := List.mem_map.mp hc
    exact if_neg (Nat.not_lt.mpr (Nat.le_add_right _ j))

/-- R85 (d): the pad character is no symbol. -/
theorem fwdRom_ne_padChar (i : Index) : fwdRom i ≠ padChar := by
  revert i
  decide

/-- R101: the padding of a group. -/
theorem count_padChar_encodeGroup (buf : List Byte) (q : Nat) :
    (encodeGroup buf q).count padChar = pads (groupSize buf.length q) := by
  rw [encodeGroup, map_encSymbol_range, List.count_append, List.count_replicate_self, Nat.add_eq_right]
  exact List.count_eq_zero.mpr (by simp [fwdRom_ne_padChar])

/-- R103: only the last group can be partial, and only it can carry `=`. -/
theorem padChar_notMem_encodeGroup {buf : List Byte} {q : Nat} (hq : 5 * (q + 1) ≤ buf.length) :
    padChar ∉ encodeGroup buf q := by
  rw [← List.count_eq_zero, count_padChar_encodeGroup, groupSize, Nat.min_eq_left (by omega), pads]

/-- R104: the padding of an output is that of its last group. -/
theorem count_padChar_encodeBytes {buf : List Byte} (h : buf.length ≠ 0) :
    (encodeBytes buf).count padChar = pads (groupSize buf.length (groupCount buf.length - 1)) := by
  have hn : groupCount buf.length = groupCount buf.length - 1 + 1 := by rw [groupCount]; omega
  have hfull : padChar ∉ (List.range (groupCount buf.length - 1)).flatMap (encodeGroup buf) := by
    simp only [List.mem_flatMap, List.mem_range, groupCount, not_exists, not_and]
    exact fun q hq => padChar_notMem_encodeGroup (by omega)
  conv_lhs => rw [encodeBytes, hn, List.range_succ]
  rw [List.flatMap_append, List.flatMap_singleton, List.count_append, List.count_eq_zero.mpr hfull, Nat.zero_add,
    count_padChar_encodeGroup]

/-- Settles O19: eight symbols a group, and the padding of the last group. -/
theorem encodeOutputLengthLaw : Obligations.EncodeOutputLengthLaw := by
  intro p r hc hl
  rw [respond_encode_of_le hc hl]
  by_cases h0 : r.len = 0
  · simp [h0, (encodeBytes_eq_nil_iff r.input).mpr (List.length_eq_zero_iff.mp h0), Response.outLen]
  · rw [if_neg h0, if_neg h0]
    refine ⟨encodeBytes_length r.input, (count_padChar_encodeBytes h0).trans (congrArg pads ?_)⟩
    change min 5 (r.len - 5 * ((r.len + 4) / 5 - 1)) = _
    omega

/-- Settles O20: a legal request ends as its rule does, which for the encoder is with OK, and an illegal one with
ILLEGAL_COMMAND. -/
theorem encoderNeverFails : Obligations.EncoderNeverFails := by
  intro p r i hd hi
  rcases respond_legal_cases p r with ⟨hl, i', hd', hr⟩ | ⟨hl, hr⟩ <;> rw [hr]
  · obtain rfl : i = i' := by simpa [hd] using hd'
    have hs : (opResponse i r).status = .ok := by rcases hi with rfl | ⟨nb, rfl⟩ <;> rfl
    refine ⟨fun _ => hs, by simp [hs], by simp [hs], ?_⟩
    rintro rfl -
    exact encodeBytes_eq_nil_iff r.input
  · exact ⟨fun h => absurd hl h, by simp, by simp, fun _ h => absurd hl h⟩

/-- R101: what stands in a group's output. -/
theorem mem_encodeGroup {buf : List Byte} {q : Nat} {c : Byte} (h : c ∈ encodeGroup buf q) :
    c = padChar ∨ ∃ i : Index, fwdRom i = c := by
  rw [encodeGroup, map_encSymbol_range, List.mem_append, List.mem_map] at h
  rcases h with ⟨j, -, hj⟩ | hpad
  · exact .inr ⟨_, hj⟩
  · exact .inl (List.eq_of_mem_replicate hpad)

/-- Settles O21: every byte of the output comes from a group, and an illegal request has no output. -/
theorem encodeOutputAlphabet : Obligations.EncodeOutputAlphabet := by
  intro p r hc c hmem
  by_cases hl : r.len ≤ p.maxInLen
  · rw [respond_encode_of_le hc hl] at hmem
    obtain ⟨q, -, hq⟩ := List.mem_flatMap.mp hmem
    exact mem_encodeGroup hq
  · have hd : decode r.cmd = .ok .encode := decode_eq_ok_iff.mpr hc
    simp [respond, hd, guarded, legal, hl] at hmem

/-! ## Concatenation (R107) -/

/-- R103: a group's output depends on the number of its real bytes and on those bytes only. -/
theorem encodeGroup_congr {a b : List Byte} {q q' : Nat} (hn : groupSize a.length q = groupSize b.length q')
    (hm : ∀ k, k < groupSize b.length q' → memRead a (5 * q + k) = memRead b (5 * q' + k)) :
    encodeGroup a q = encodeGroup b q' := by
  simp only [encodeGroup, hn, groupQuantum_congr fun k hk _ => hm k hk]

theorem encodeGroup_append_left {a : List Byte} (b : List Byte) {q : Nat} (hq : 5 * (q + 1) ≤ a.length) :
    encodeGroup (a ++ b) q = encodeGroup a q := by
  refine encodeGroup_congr ?_ fun k hk => ?_
  · simp only [groupSize, List.length_append]
    omega
  · rw [groupSize] at hk
    exact List.getD_append _ _ _ _ (by omega)

theorem encodeGroup_append_right {a : List Byte} (b : List Byte) {n : Nat} (ha : a.length = 5 * n) (q : Nat) :
    encodeGroup (a ++ b) (n + q) = encodeGroup b q := by
  refine encodeGroup_congr ?_ fun k _ => ?_
  · simp only [groupSize, List.length_append]
    omega
  · rw [memRead, memRead, List.getD_append_right _ _ _ _ (by omega), show 5 * (n + q) + k - a.length = 5 * q + k by omega]

/-- R107: whole groups in front leave the groups behind them as they are. -/
theorem encodeBytes_append {a : List Byte} (b : List Byte) {n : Nat} (ha : a.length = 5 * n) :
    encodeBytes (a ++ b) = encodeBytes a ++ encodeBytes b := by
  have hcount : groupCount (a ++ b).length = n + groupCount b.length := by
    simp only [groupCount, List.length_append]
    omega
  have hcountA : groupCount a.length = n := by rw [groupCount]; omega
  rw [encodeBytes, hcount, List.range_add, List.flatMap_append, List.flatMap_map, encodeBytes, hcountA, encodeBytes]
  congr 1
  · exact List.flatMap_congr fun q hq => encodeGroup_append_left b (by have := List.mem_range.mp hq; omega)
  · exact List.flatMap_congr fun q _ => encodeGroup_append_right b ha q

/-- Settles O24: the three requests are legal, and the outputs are those of the groups. -/
theorem encodeConcatenates : Obligations.EncodeConcatenates := by
  intro p opw a b ha hl
  have hlen : a.length + b.length ≤ p.maxInLen := List.length_append ▸ hl
  rw [out_encode_of_le opw hl, out_encode_of_le opw (Nat.le_of_add_right_le hlen),
    out_encode_of_le opw (Nat.le_of_add_left_le hlen)]
  exact encodeBytes_append b (n := a.length / 5) (by omega)

end Sys2Proof.Machine
end

section
/-! PROOFS. The statements of 42_decoder.md: the padding table (R120, R121), DECQ (R122 to R124), DECODE of a whole
buffer with its errors, padding and length (R125 to R129), the round trip through ENCODE (R130, R131), and the same
through the host wrapper (R150, R156). -/

namespace Sys2Proof.Machine

open Sys2Proof

/-! ## The padding table (R120, R121) -/

/-- R120, R121: the accepted counts and the bytes each leaves. -/
theorem leftBytes_eq_some_iff {p n : Nat} : leftBytes p = some n ↔ p ∈ validPadCounts ∧ n = 5 * (8 - p) / 8 := by
  unfold leftBytes
  split <;> simp_all [validPadCounts, eq_comm]

theorem leftBytes_eq_none_iff {p : Nat} : leftBytes p = none ↔ p ∉ validPadCounts := by
  simp [Option.eq_none_iff_forall_ne_some, leftBytes_eq_some_iff]

theorem leftBytes_of_mem {p : Nat} (h : p ∈ validPadCounts) : leftBytes p = some (5 * (8 - p) / 8) :=
  leftBytes_eq_some_iff.mpr ⟨h, rfl⟩

theorem le_six_of_mem_validPadCounts {p : Nat} (h : p ∈ validPadCounts) : p ≤ 6 :=
  (leftBytes_bounds (leftBytes_of_mem h)).1

/-- R120: LEFT inverts PADS. -/
theorem leftBytes_pads {nb : Nat} (hlo : 1 ≤ nb) (hhi : nb ≤ 5) : leftBytes (pads nb) = some nb := by
  interval_cases nb <;> rfl

/-- Settles O6: the rows of the table; a count is rejected exactly where LEFT has no row. -/
theorem decodePaddingTable : Obligations.DecodePaddingTable := by
  refine ⟨rfl, fun p => ?_, fun p n h => (leftBytes_eq_some_iff.mp h).2, fun _ => leftBytes_pads, by decide⟩
  rw [← not_iff_not, ← leftBytes_eq_none_iff]
  simp

/-! ## The data symbols of a quantum (R122, R123) -/

theorem symbolIndex_or (v w : Quantum) (i : Nat) : symbolIndex (v ||| w) i = symbolIndex v i ||| symbolIndex w i :=
  BitVec.extractLsb'_or

theorem quantumByte_or (v w : Quantum) (k : Nat) : quantumByte (v ||| w) k = quantumByte v k ||| quantumByte w k :=
  BitVec.extractLsb'_or

/-- R122: an index put at symbol position `j` is read back there and nowhere else. -/
theorem symbolIndex_shifted (x : Index) {i j : Nat} (hi : i < 8) (hj : j < 8) :
    symbolIndex (x.setWidth 40 <<< (35 - 5 * j)) i = if i = j then x else 0#5 := by
  ext b hb
  rcases Nat.lt_trichotomy i j with h | rfl | h
  · have hx : x.getLsbD (35 - 5 * i + b - (35 - 5 * j)) = false := BitVec.getLsbD_of_ge _ _ (by omega)
    simp [symbolIndex, h.ne, hx]
  · simp [symbolIndex, hb, show 35 - 5 * i + b < 40 by omega]
  · simp [symbolIndex, h.ne', show 35 - 5 * i + b < 35 - 5 * j by omega]

/-- R123: the data symbols' indices after `a`, five bits each. -/
def accumulate (a : Quantum) (d : List Byte) : Quantum :=
  d.foldl (fun a x => (a <<< 5) ||| (revIdx (revRom x)).setWidth 40) a

/-- R123: the two-step form, the accumulated data symbols `d` shifted up to bit 39. -/
def dataQuantum (d : List Byte) : Quantum := accumulate 0#40 d <<< (5 * (8 - d.length))

/-- R122, R123: on symbols the lookup loop, which puts each index at its place, gives the accumulate-then-shift form. -/
theorem lookupSymbols_of_valid {d : List Byte} {j : Nat} (a : Quantum) (hd : ∀ x ∈ d, revValid (revRom x) = true)
    (hj : j + d.length ≤ 8) :
    lookupSymbols d j (a <<< (5 * (8 - j))) = .ok (accumulate a d <<< (5 * (8 - (j + d.length)))) := by
  induction d generalizing j a with
  | nil => rfl
  | cons x rest ih =>
    have hlen : j + (rest.length + 1) ≤ 8 := hj
    have hstep : a <<< (5 * (8 - j)) ||| ((revIdx (revRom x)).setWidth 40) <<< (35 - 5 * j) =
        (a <<< 5 ||| (revIdx (revRom x)).setWidth 40) <<< (5 * (8 - (j + 1))) := by
      rw [BitVec.shiftLeft_or_distrib, ← BitVec.shiftLeft_add, show 5 + 5 * (8 - (j + 1)) = 5 * (8 - j) by omega,
        show 5 * (8 - (j + 1)) = 35 - 5 * j by omega]
    rw [lookupSymbols, if_pos (hd x List.mem_cons_self), hstep,
      ih _ (fun y hy => hd y (List.mem_cons_of_mem x hy)) (by omega), List.length_cons,
      show j + 1 + rest.length = j + (rest.length + 1) by omega]
    rfl

/-- R122: one more data symbol fills the next five bits. -/
theorem dataQuantum_append_singleton {d : List Byte} (x : Byte) (hd : d.length < 8) :
    dataQuantum (d ++ [x]) = dataQuantum d ||| (revIdx (revRom x)).setWidth 40 <<< (35 - 5 * d.length) := by
  rw [dataQuantum, accumulate, List.foldl_append, List.length_append, List.length_singleton, List.foldl_cons,
    List.foldl_nil, BitVec.shiftLeft_or_distrib, ← BitVec.shiftLeft_add,
    show 5 + 5 * (8 - (d.length + 1)) = 5 * (8 - d.length) by omega,
    show 5 * (8 - (d.length + 1)) = 35 - 5 * d.length by omega]
  rfl

/-- R42, R122: the data symbols' indices in their order, then zeros. -/
theorem symbolIndex_dataQuantum {d : List Byte} (hd : d.length ≤ 8) {i : Nat} (hi : i < 8) :
    symbolIndex (dataQuantum d) i = if i < d.length then revIdx (revRom (d.getD i 0#8)) else 0#5 := by
  induction d using List.reverseRecOn with
  | nil => simp [dataQuantum, accumulate, symbolIndex]
  | append_singleton d x ih =>
    rw [List.length_append, List.length_singleton] at hd ⊢
    rw [dataQuantum_append_singleton x hd, symbolIndex_or, ih (by omega), symbolIndex_shifted _ hi hd]
    rcases Nat.lt_trichotomy i d.length with h | rfl | h
    · simp [h, h.ne, Nat.lt_succ_of_lt h]
    · simp
    · simp [h.ne', show ¬i < d.length by omega, show ¬i < d.length + 1 by omega]

/-! ## DECQ (R122, R123) -/

/-- R122: the padding count of one quantum. -/
def padCount (last : Bool) (c : List Byte) : Nat := if last then trailPad c else 0

/-- R174: the padding count is checked first. -/
theorem decodeQuantum_of_bad_count {last : Bool} {c : List Byte} (h : padCount last c ∉ validPadCounts) :
    decodeQuantum last c = .error .paddingError := by
  rcases decodeQuantum_cases last c with ⟨-, hq⟩ | ⟨n, hn, -⟩
  · exact hq
  · exact absurd (leftBytes_eq_some_iff.mp hn).1 h

/-- R174: the digits are checked after the padding count. -/
theorem decodeQuantum_of_invalid {last : Bool} {c : List Byte} (hp : padCount last c ∈ validPadCounts)
    (hx : ∃ x ∈ c.take (8 - padCount last c), revValid (revRom x) = false) :
    decodeQuantum last c = .error .invalidDigit := by
  rcases decodeQuantum_cases last c with ⟨hn, -⟩ | ⟨n, -, ⟨hq, -⟩ | ⟨v, hv, -⟩⟩
  · exact absurd hp (leftBytes_eq_none_iff.mp hn)
  · exact hq
  · obtain ⟨x, hx, hf⟩ := hx
    exact absurd (lookupSymbols_ok hv x hx) (by simp [hf])

/-- R122: what a quantum without error decodes to. -/
theorem decodeQuantum_of_valid {last : Bool} {c : List Byte} (hp : padCount last c ∈ validPadCounts)
    (hx : ∀ x ∈ c.take (8 - padCount last c), revValid (revRom x) = true) :
    decodeQuantum last c =
      .ok (quantumOf (keptByte (5 * (8 - padCount last c) / 8) (dataQuantum (c.take (8 - padCount last c)))),
        5 * (8 - padCount last c) / 8) := by
  rcases decodeQuantum_cases last c with ⟨hn, -⟩ | ⟨n, hn, ⟨-, x, hx', hf⟩ | ⟨v, hv, hq⟩⟩
  · exact absurd hp (leftBytes_eq_none_iff.mp hn)
  · exact absurd (hx x hx') (by simp [hf])
  · obtain rfl := (leftBytes_eq_some_iff.mp hn).2
    have hd := lookupSymbols_of_valid (j := 0) 0#40 hx (by simp)
    rw [BitVec.zero_shiftLeft, Nat.zero_add] at hd
    obtain rfl : dataQuantum _ = v := Except.ok.inj (hd.symm.trans hv)
    exact hq

/-- R66: DECQ is legal on every request. -/
theorem exec_decq {s : State} {r : Request} (cf last : Bool) (h : s.req = some r) :
    exec (.decq cf last) s = .next (s.complete (decqResponse cf last r)) :=
  exec_of_legal h rfl

theorem decqResponse_of_error {cf last : Bool} {r : Request} {k : Status}
    (h : decodeQuantum last (decqSymbols cf r.opw) = .error k) : decqResponse cf last r = Response.raise k := by
  simp only [decqResponse, h]

theorem decqResponse_of_ok {cf last : Bool} {r : Request} {v : Quantum} {n : Nat}
    (h : decodeQuantum last (decqSymbols cf r.opw) = .ok (v, n)) :
    decqResponse cf last r = Response.word (v.setWidth 64) (BitVec.ofNat 3 n) := by
  simp only [decqResponse, h]

/-- Settles O25: the two errors of one quantum, on the folded lanes of the operand. -/
theorem decqErrorsInOrder : Obligations.DecqErrorsInOrder := by
  refine fun s r cf last h => ⟨fun hp => ?_, fun hp hx => ?_⟩ <;> rw [exec_decq cf last h]
  · rw [decqResponse_of_error (decodeQuantum_of_bad_count hp)]
    rfl
  · rw [decqResponse_of_error (decodeQuantum_of_invalid hp hx)]
    rfl

theorem length_decqSymbols (cf : Bool) (opw : Sys2Proof.Word) : (decqSymbols cf opw).length = 8 := by
  simp [decqSymbols]

theorem quantumByte_quantumOf_keptByte (n : Nat) (v : Quantum) {k : Nat} (hk : k < 5) :
    quantumByte (quantumOf (keptByte n v)) k = if k < n then quantumByte v k else 0#8 :=
  quantumByte_quantumOf _ hk

/-- R122: the bytes of RW[39:0] are those of the quantum. -/
theorem extractLsb'_setWidth_quantumByte (v : Quantum) {k : Nat} (hk : k < 5) :
    (v.setWidth 64).extractLsb' (32 - 8 * k) 8 = quantumByte v k := by
  ext j hj
  simp [quantumByte, show 32 - 8 * k + j < 64 by omega]

theorem getD_take {c : List Byte} {i m : Nat} (h : i < m) : (c.take m).getD i 0#8 = c.getD i 0#8 := by
  simp [List.getElem?_take_of_lt h]

/-- Settles O26: the quantum is that of the data symbols, whose kept bytes RW holds. -/
theorem decqDecodesOneQuantum : Obligations.DecqDecodesOneQuantum := by
  intro s r cf last h c p hp hx
  have hlen : (c.take (8 - p)).length = 8 - p := by simp [c]
  refine ⟨(quantumOf (keptByte (5 * (8 - p) / 8) (dataQuantum (c.take (8 - p))))).setWidth 64,
    dataQuantum (c.take (8 - p)), ?_, fun j hj => ?_, extractLsb'_setWidth_quantum _, fun k hk => ?_⟩
  · rw [exec_decq cf last h, decqResponse_of_ok (decodeQuantum_of_valid hp hx)]
    rfl
  · refine (symbolIndex_dataQuantum (by omega) hj).trans ?_
    rw [hlen]
    split
    · next hj => rw [getD_take hj]
    · rfl
  · rw [extractLsb'_setWidth_quantumByte _ hk]
    exact quantumByte_quantumOf_keptByte _ _ hk

/-- R122: only a quantum without error decodes. -/
theorem decodeQuantum_ok_inv {last : Bool} {c : List Byte} {y : Quantum × Nat} (h : decodeQuantum last c = .ok y) :
    padCount last c ∈ validPadCounts ∧ ∀ x ∈ c.take (8 - padCount last c), revValid (revRom x) = true := by
  rcases decodeQuantum_cases last c with ⟨-, hq⟩ | ⟨n, hn, ⟨hq, -⟩ | ⟨v, hv, -⟩⟩
  · simp [hq] at h
  · simp [hq] at h
  · exact ⟨(leftBytes_eq_some_iff.mp hn).1, lookupSymbols_ok hv⟩

/-- Settles O27: `8 - p` data symbols leave the shift `5 * p`. -/
theorem decqAgreesWithTwoStepForm : Obligations.DecqAgreesWithTwoStepForm := by
  intro last c w n hlen hok p acc
  obtain ⟨hp, hx⟩ := decodeQuantum_ok_inv hok
  obtain ⟨rfl, rfl⟩ : _ = w ∧ _ = n := by simpa [decodeQuantum_of_valid hp hx] using hok
  refine ⟨leftBytes_of_mem hp, ?_⟩
  have hp6 : p ≤ 6 := le_six_of_mem_validPadCounts hp
  have hlen' : 8 - (c.take (8 - p)).length = p := by simp [hlen]; omega
  change quantumOf (keptByte _ (acc <<< (5 * (8 - (c.take (8 - p)).length)))) = _
  rw [hlen']
  rfl

/-! ## The trailing padding and the data symbols before it (R126) -/

theorem trailPad_append_replicate {c : List Byte} (hc : c.getLast? ≠ some padChar) (n : Nat) :
    trailPad (c ++ List.replicate n padChar) = n := by
  induction n with
  | zero =>
    rcases List.eq_nil_or_concat' c with rfl | ⟨d, x, rfl⟩
    · rfl
    · rw [List.replicate_zero, List.append_nil]
      exact trailPad_append_other d (by simpa using hc)
  | succ n ih => rw [List.replicate_succ', ← List.append_assoc, trailPad_append_pad, ih]

/-- R126: the count is the same of every rest of the buffer that holds the trailing run. -/
theorem trailPad_drop {c : List Byte} {k : Nat} (h : k + trailPad c ≤ c.length) : trailPad (c.drop k) = trailPad c := by
  obtain ⟨d, hb, hd⟩ := exists_eq_append_replicate_trailPad c
  generalize trailPad c = n at hb h
  subst hb
  rw [List.length_append, List.length_replicate] at h
  rw [List.drop_append_of_le_length (by omega)]
  refine trailPad_append_replicate ?_ n
  rw [List.getLast?_drop]
  split <;> simp [hd]

/-- A byte map that neither makes nor loses a `=` keeps the count. -/
theorem trailPad_map {f : Byte → Byte} (hf : ∀ x, f x = padChar ↔ x = padChar) (c : List Byte) :
    trailPad (c.map f) = trailPad c := by
  have hcomp : (fun x => x == padChar) ∘ f = (fun x => x == padChar) := by
    funext x
    simp [hf x, beq_eq_decide]
  rw [trailPad, ← List.map_reverse, List.takeWhile_map, hcomp, List.length_map, trailPad]

/-- R125: the bytes before the trailing padding. -/
def dataPart (c : List Byte) : List Byte := c.take (c.length - trailPad c)

theorem length_dataPart (c : List Byte) : (dataPart c).length = c.length - trailPad c := by
  simp [dataPart]

theorem dataPart_append_replicate (c : List Byte) : dataPart c ++ List.replicate (trailPad c) padChar = c := by
  obtain ⟨d, hb, -⟩ := exists_eq_append_replicate_trailPad c
  rw [dataPart]
  generalize trailPad c = n at hb
  subst hb
  simp

theorem mem_dataPart {c : List Byte} {x : Byte} (h : x ∈ c) (hx : x ≠ padChar) : x ∈ dataPart c := by
  rw [← dataPart_append_replicate c, List.mem_append] at h
  exact h.resolve_right fun hr => hx (List.eq_of_mem_replicate hr)

/-- R126 (a): the padding of the whole buffer is that of its last quantum. -/
theorem trailPad_quantumAt_last {c : List Byte} {n : Nat} (hlen : c.length = 8 * (n + 1)) (hp : trailPad c ≤ 8) :
    trailPad (quantumAt c n) = trailPad c := by
  rw [quantumAt, List.take_of_length_le (by simp; omega), trailPad_drop (by omega)]

/-- R126: only the last quantum has padding. -/
theorem padCount_quantumAt {c : List Byte} {n q : Nat} (hlen : c.length = 8 * n) (hp : trailPad c ≤ 8) :
    padCount (decide (q + 1 = n)) (quantumAt c q) = if q + 1 = n then trailPad c else 0 := by
  by_cases h : q + 1 = n
  · subst h
    simpa [padCount] using trailPad_quantumAt_last hlen hp
  · simp [padCount, h]

/-- R126 (b): no quantum of a buffer with an accepted count fails its own padding check. -/
theorem padCount_quantumAt_mem {c : List Byte} {n q : Nat} (hlen : c.length = 8 * n)
    (hp : trailPad c ∈ validPadCounts) : padCount (decide (q + 1 = n)) (quantumAt c q) ∈ validPadCounts := by
  have hp6 := le_six_of_mem_validPadCounts hp
  rw [padCount_quantumAt hlen (by omega)]
  split
  · exact hp
  · decide

/-- R126: the data positions of quantum `q` are the `q`-th eight of the whole buffer's data part. -/
theorem take_quantumAt {c : List Byte} {n q : Nat} (hlen : c.length = 8 * n) (hp : trailPad c ≤ 8) (hq : q < n) :
    (quantumAt c q).take (8 - padCount (decide (q + 1 = n)) (quantumAt c q)) = quantumAt (dataPart c) q := by
  rw [padCount_quantumAt hlen hp, quantumAt, quantumAt, dataPart, List.take_take, List.drop_take, List.take_take]
  congr 1
  split <;> omega

theorem length_quantumAt_dataPart {c : List Byte} {n q : Nat} (hlen : c.length = 8 * n) (hp : trailPad c ≤ 8)
    (hq : q < n) : (quantumAt (dataPart c) q).length = 8 - padCount (decide (q + 1 = n)) (quantumAt c q) := by
  rw [padCount_quantumAt hlen hp, quantumAt, List.length_take, List.length_drop, length_dataPart]
  split <;> omega

/-! ## The loop over the quanta (R125) -/

/-- R120, R122: the real bytes of one quantum with the data symbols `d`. -/
def quantumBytes (d : List Byte) : List Byte := (List.range (5 * d.length / 8)).map (quantumByte (dataQuantum d))

theorem map_quantumByte_keptByte {n : Nat} (hn : n ≤ 5) (v : Quantum) :
    (List.range n).map (quantumByte (quantumOf (keptByte n v))) = (List.range n).map (quantumByte v) :=
  List.map_congr_left fun k hk => by
    have hk : k < n := List.mem_range.mp hk
    rw [quantumByte_quantumOf_keptByte n v (by omega), if_pos hk]

/-- R125: quanta that all decode give their bytes in order. -/
theorem decodeQuanta_of_ok {c : List Byte} {count : Nat} {f : Nat → List Byte} {qs : List Nat}
    (h : ∀ q ∈ qs, ∃ v n, decodeQuantum (decide (q + 1 = count)) (quantumAt c q) = .ok (v, n) ∧
      (List.range n).map (quantumByte v) = f q) (out : List Byte) :
    decodeQuanta c count qs out = .ok (out ++ qs.flatMap f) := by
  induction qs generalizing out with
  | nil => simp [decodeQuanta]
  | cons q qs ih =>
    obtain ⟨v, n, hq, hf⟩ := h q List.mem_cons_self
    rw [decodeQuanta, hq]
    dsimp only
    rw [ih (fun r hr => h r (List.mem_cons_of_mem q hr)), hf, List.flatMap_cons, List.append_assoc]

/-- R125: without a bad padding count the first error of the loop is an invalid digit. -/
theorem decodeQuanta_of_invalid {c : List Byte} {count : Nat} {qs : List Nat}
    (hp : ∀ q ∈ qs, padCount (decide (q + 1 = count)) (quantumAt c q) ∈ validPadCounts)
    (hx : ∃ q ∈ qs, decodeQuantum (decide (q + 1 = count)) (quantumAt c q) = .error .invalidDigit) (out : List Byte) :
    decodeQuanta c count qs out = .error .invalidDigit := by
  induction qs generalizing out with
  | nil => simp at hx
  | cons q qs ih =>
    rw [decodeQuanta]
    rcases decodeQuantum_cases (decide (q + 1 = count)) (quantumAt c q) with ⟨hn, -⟩ | ⟨n, -, ⟨hq, -⟩ | ⟨v, -, hq⟩⟩
    · exact absurd (hp q List.mem_cons_self) (leftBytes_eq_none_iff.mp hn)
    · rw [hq]
    · rw [hq]
      refine ih (fun r hr => hp r (List.mem_cons_of_mem q hr)) ?_ _
      simpa [hq] using hx

/-- The first `n` pieces of `k` elements, joined. -/
theorem flatMap_range_take_drop {α : Type} (l : List α) (k n : Nat) :
    (List.range n).flatMap (fun q => (l.drop (k * q)).take k) = l.take (k * n) := by
  induction n with
  | zero => simp
  | succ n ih => rw [List.range_succ, List.flatMap_append, ih, List.flatMap_singleton, Nat.mul_succ, List.take_add]

theorem exists_mem_quantumAt {d : List Byte} {n : Nat} (hd : d.length ≤ 8 * n) {x : Byte} (hx : x ∈ d) :
    ∃ q < n, x ∈ quantumAt d q := by
  rw [← List.take_of_length_le hd, ← flatMap_range_take_drop, List.mem_flatMap] at hx
  simpa [quantumAt] using hx

theorem mem_of_mem_quantumAt {d : List Byte} {q : Nat} {x : Byte} (hx : x ∈ quantumAt d q) : x ∈ d :=
  List.mem_of_mem_drop (List.mem_of_mem_take hx)

/-- R122: the indices of quantum `q` of the data symbols `d`. -/
theorem symbolIndex_dataQuantum_quantumAt (d : List Byte) (q : Nat) {j : Nat} (hj : j < 8) :
    symbolIndex (dataQuantum (quantumAt d q)) j =
      if 8 * q + j < d.length then revIdx (revRom (d.getD (8 * q + j) 0#8)) else 0#5 := by
  have hget : (quantumAt d q).getD j 0#8 = d.getD (8 * q + j) 0#8 := by
    rw [quantumAt, getD_take hj]
    simp
  rw [symbolIndex_dataQuantum (d := quantumAt d q) (List.length_take_le _ _) hj, hget, quantumAt, List.length_take,
    List.length_drop]
  exact ite_congr (propext (by omega)) (fun _ => rfl) fun _ => rfl

/-- R125: the real bytes of a buffer of `n` quanta with the data symbols `d`. -/
def bufferBytes (d : List Byte) (n : Nat) : List Byte := (List.range n).flatMap fun q => quantumBytes (quantumAt d q)

/-- Lists of one length `k`, joined. -/
theorem length_flatMap_of_length_eq {α β : Type} {f : α → List β} {k : Nat} (hf : ∀ a, (f a).length = k) (l : List α) :
    (l.flatMap f).length = k * l.length := by
  simp [List.length_flatMap, hf, Nat.mul_comm]

/-- R128: the real bytes of a buffer are the first of those of its whole quanta. -/
theorem bufferBytes_eq_take (d : List Byte) (n : Nat) :
    bufferBytes d n =
      ((List.range n).flatMap fun q => (List.range 5).map (quantumByte (dataQuantum (quantumAt d q)))).take
        (5 * d.length / 8) := by
  unfold bufferBytes
  induction n with
  | zero => simp
  | succ n ih =>
    rw [List.range_succ, List.flatMap_append, List.flatMap_append, ih, List.flatMap_singleton, List.flatMap_singleton,
      List.take_append, List.append_cancel_left_eq, length_flatMap_of_length_eq (k := 5) (by simp), List.length_range,
      quantumBytes, ← List.map_take, List.take_range]
    congr 2
    rw [quantumAt, List.length_take, List.length_drop]
    omega

/-- R128: the number of real bytes. -/
theorem length_bufferBytes {d : List Byte} {n : Nat} (hd : d.length ≤ 8 * n) :
    (bufferBytes d n).length = 5 * d.length / 8 := by
  rw [bufferBytes_eq_take, List.length_take, length_flatMap_of_length_eq (k := 5) (by simp), List.length_range]
  omega

theorem getElem?_bufferBytes {d : List Byte} {n q k : Nat} (hq : q < n) (hk : k < 5)
    (hlt : 5 * q + k < (bufferBytes d n).length) :
    (bufferBytes d n)[5 * q + k]? = some (quantumByte (dataQuantum (quantumAt d q)) k) := by
  rw [bufferBytes_eq_take] at hlt ⊢
  rw [List.getElem?_take_of_lt (hlt.trans_le (List.length_take_le _ _)),
    getElem?_flatMap_of_length_eq (by simp) _ (by simpa using hq) hk]
  simp [hk]

/-! ## DECODE (R125 to R129) -/

/-- R173: length and padding count are checked before any digit. -/
theorem decodeBytes_of_bad_count {cf : Bool} {buf : List Byte}
    (h : buf.length % 8 ≠ 0 ∨ trailPad (buf.map (foldIf cf)) ∉ validPadCounts) :
    decodeBytes cf buf = .error .paddingError := by
  unfold decodeBytes
  split
  · rfl
  · next hlen =>
    simp only [leftBytes_eq_none_iff.mpr (h.resolve_left hlen)]

section Quanta

variable {cf : Bool} {buf c : List Byte} {n : Nat} (hc : buf.map (foldIf cf) = c) (hlen : c.length = 8 * n)
  (hp : trailPad c ∈ validPadCounts)

include hc hlen hp

theorem decodeBytes_eq_decodeQuanta : decodeBytes cf buf = decodeQuanta c n (List.range n) [] := by
  have hbuf : buf.length = 8 * n := by rw [← hlen, ← hc, List.length_map]
  subst hc
  rw [decodeBytes, if_neg (by omega)]
  simp only [leftBytes_of_mem hp, hlen, Nat.mul_div_cancel_left n (by decide : 0 < 8)]

/-- R125: a byte before the padding that is no symbol. -/
theorem decodeBytes_of_invalid (hx : ∃ x ∈ dataPart c, revValid (revRom x) = false) :
    decodeBytes cf buf = .error .invalidDigit := by
  have hp6 := le_six_of_mem_validPadCounts hp
  obtain ⟨x, hx, hf⟩ := hx
  obtain ⟨q, hq, hxq⟩ := exists_mem_quantumAt (n := n) (by rw [length_dataPart]; omega) hx
  rw [decodeBytes_eq_decodeQuanta hc hlen hp]
  refine decodeQuanta_of_invalid (fun _ _ => padCount_quantumAt_mem hlen hp) ⟨q, List.mem_range.mpr hq, ?_⟩ []
  refine decodeQuantum_of_invalid (padCount_quantumAt_mem hlen hp) ⟨x, ?_, hf⟩
  rwa [take_quantumAt hlen (by omega) hq]

/-- R125: what a buffer without error decodes to. -/
theorem decodeBytes_of_valid (hx : ∀ x ∈ dataPart c, revValid (revRom x) = true) :
    decodeBytes cf buf = .ok (bufferBytes (dataPart c) n) := by
  have hp6 := le_six_of_mem_validPadCounts hp
  rw [decodeBytes_eq_decodeQuanta hc hlen hp]
  refine decodeQuanta_of_ok (fun q hq => ?_) []
  have hq : q < n := List.mem_range.mp hq
  have htake := take_quantumAt hlen (by omega) hq
  refine ⟨_, _, decodeQuantum_of_valid (padCount_quantumAt_mem hlen hp) ?_, ?_⟩
  · rw [htake]
    exact fun x h => hx x (mem_of_mem_quantumAt h)
  · rw [htake, ← length_quantumAt_dataPart hlen (by omega) hq]
    refine map_quantumByte_keptByte ?_ _
    have hle : (quantumAt (dataPart c) q).length ≤ 8 := List.length_take_le _ _
    omega

end Quanta

theorem exec_decode_of_le {s : State} {r : Request} (cf : Bool) (h : s.req = some r)
    (hl : r.len ≤ s.params.maxInLen) : exec (.decode cf) s = .next (s.complete (decodeResponse cf r)) :=
  exec_of_legal h (decide_eq_true hl)

theorem decodeResponse_of_error {cf : Bool} {r : Request} {k : Status} (h : decodeBytes cf r.input = .error k) :
    decodeResponse cf r = Response.raise k := by
  simp only [decodeResponse, h]

theorem decodeResponse_of_ok {cf : Bool} {r : Request} {out : List Byte} (h : decodeBytes cf r.input = .ok out) :
    decodeResponse cf r = Response.buffer out := by
  simp only [decodeResponse, h]

theorem length_map_foldIf {buf : List Byte} (cf : Bool) (h : buf.length % 8 = 0) :
    (buf.map (foldIf cf)).length = 8 * (buf.length / 8) := by
  rw [List.length_map]
  omega

/-- Settles O29: the legality check, then the two ways DECODE's body fails. -/
theorem decodeErrorsInOrder : Obligations.DecodeErrorsInOrder := by
  intro s r cf h c
  have hc : c.length = r.len := List.length_map _
  refine ⟨fun hl => ?_, fun hl hbad => ?_, fun hl h8 hp hx => ?_⟩
  · exact exec_of_not_legal h (decide_eq_false (Nat.not_le.mpr hl))
  · rw [exec_decode_of_le cf h hl, decodeResponse_of_error (decodeBytes_of_bad_count hbad)]
    rfl
  · rw [← hc] at hx
    have hb := decodeBytes_of_invalid rfl (length_map_foldIf cf h8) hp hx
    rw [exec_decode_of_le cf h hl, decodeResponse_of_error hb]
    rfl

/-- Settles O30: the output is the real bytes of the buffer's quanta, read quantum by quantum. -/
theorem decodeDecodesWholeBuffer : Obligations.DecodeDecodesWholeBuffer := by
  intro s r cf h c p hl h8 hp hx
  have hp6 : p ≤ 6 := le_six_of_mem_validPadCounts hp
  have hc : c.length = r.len := List.length_map _
  have hd : (dataPart c).length = r.len - p := by rw [length_dataPart, hc]
  have hpc : p ≤ c.length := trailPad_le_length c
  have hlen : (bufferBytes (dataPart c) (r.len / 8)).length = 5 * (r.len - p) / 8 := by
    rw [length_bufferBytes (by omega), hd]
  refine ⟨bufferBytes (dataPart c) (r.len / 8), ?_, ?_, fun q hq =>
    ⟨dataQuantum (quantumAt (dataPart c) q), fun j hj => ?_, fun k hk hlt => getElem?_bufferBytes hq hk hlt⟩⟩
  · rw [← hc] at hx
    have hb := decodeBytes_of_valid rfl (length_map_foldIf cf h8) hp hx
    rw [exec_decode_of_le cf h hl, decodeResponse_of_ok hb]
    rfl
  · rw [hlen]
    split <;> omega
  · refine (symbolIndex_dataQuantum_quantumAt _ q hj).trans ?_
    rw [hd]
    split
    · next hlt => rw [dataPart, getD_take (by omega)]
    · rfl

/-- R84: the fold leaves `=` alone and makes none. -/
theorem foldIf_eq_padChar_iff (cf : Bool) (x : Byte) : foldIf cf x = padChar ↔ x = padChar := by
  revert cf x
  decide

theorem trailPad_map_foldIf (cf : Bool) (c : List Byte) : trailPad (c.map (foldIf cf)) = trailPad c :=
  trailPad_map (foldIf_eq_padChar_iff cf) c

theorem dataPart_map_foldIf (cf : Bool) (c : List Byte) :
    dataPart (c.map (foldIf cf)) = (dataPart c).map (foldIf cf) := by
  rw [dataPart, trailPad_map_foldIf, List.length_map, ← List.map_take, dataPart]

/-- Settles O31: the count of the last quantum is an accepted one, and a `=` before the padding is no symbol. -/
theorem paddingSitsInLastQuantum : Obligations.PaddingSitsInLastQuantum := by
  intro buf n hn hlen hp
  obtain ⟨n, rfl⟩ := Nat.exists_eq_add_of_le' hn
  have hp6 := le_six_of_mem_validPadCounts hp
  have htrail : trailPad (quantumAt buf n) = trailPad buf := trailPad_quantumAt_last hlen (by omega)
  refine ⟨htrail, fun he => ?_, fun cf i hi hpad => ?_⟩
  · rcases decodeQuantum_cases true (quantumAt buf n) with ⟨hn, -⟩ | ⟨m, -, ⟨hq, -⟩ | ⟨v, -, hq⟩⟩
    · exact leftBytes_eq_none_iff.mp hn (by rwa [if_pos rfl, htrail])
    · exact absurd (hq.symm.trans he) (by simp)
    · exact absurd (hq.symm.trans he) (by simp)
  · refine decodeBytes_of_invalid rfl (n := n + 1) (by rwa [List.length_map]) (by rwa [trailPad_map_foldIf])
      ⟨padChar, ?_, rfl⟩
    rw [dataPart_map_foldIf]
    refine List.mem_map.mpr ⟨padChar, List.mem_of_getElem? (i := i) ?_, (foldIf_eq_padChar_iff cf _).mpr rfl⟩
    rw [dataPart, List.getElem?_take_of_lt hi]
    exact hpad

/-- R62: the words of DECODE. -/
theorem decode_decodeWord (cf : Bool) : decode (decodeWord cf) = .ok (.decode cf) := by
  cases cf <;> rfl

/-- R62: the words of DECQ.last. -/
theorem decode_decqLastWord (cf : Bool) : decode (decqLastWord cf) = .ok (.decq cf true) := by
  cases cf <;> rfl

section Request

variable {p : Params} {r : Request} {cf : Bool}

theorem respond_decode_of_le (hc : r.cmd = decodeWord cf) (hl : r.len ≤ p.maxInLen) :
    respond p r = decodeResponse cf r :=
  respond_of_legal (i := .decode cf) (by rw [hc, decode_decodeWord]) (decide_eq_true hl)

theorem respond_decode_of_lt (hc : r.cmd = decodeWord cf) (hl : p.maxInLen < r.len) :
    respond p r = Response.raise .illegalCommand := by
  simp [respond, hc, decode_decodeWord, guarded, legal, hl]

theorem respond_decode_of_ok {out : List Byte} (hc : r.cmd = decodeWord cf) (hl : r.len ≤ p.maxInLen)
    (h : decodeBytes cf r.input = .ok out) : respond p r = Response.buffer out := by
  rw [respond_decode_of_le hc hl, decodeResponse_of_ok h]

theorem respond_decode_of_error {k : Status} (hc : r.cmd = decodeWord cf) (hl : r.len ≤ p.maxInLen)
    (h : decodeBytes cf r.input = .error k) : respond p r = Response.raise k := by
  rw [respond_decode_of_le hc hl, decodeResponse_of_error h]

theorem respond_decq_last (hc : r.cmd = decqLastWord cf) : respond p r = decqResponse cf true r :=
  respond_of_legal (i := .decq cf true) (by rw [hc, decode_decqLastWord]) rfl

/-- R65: a DECODE that ends with OK answers what its body decoded. -/
theorem respond_decode_ok_inv (hc : r.cmd = decodeWord cf) (h : (respond p r).status = .ok) :
    ∃ out, decodeBytes cf r.input = .ok out ∧ respond p r = Response.buffer out := by
  rcases Nat.lt_or_ge p.maxInLen r.len with hl | hl
  · simp [respond_decode_of_lt hc hl] at h
  · rcases hb : decodeBytes cf r.input with k | out
    · rw [respond_decode_of_error hc hl hb] at h
      rcases decodeBytes_error hb with rfl | rfl <;> simp at h
    · exact ⟨out, rfl, respond_decode_of_ok hc hl hb⟩

end Request

/-- R125: only a buffer without error decodes. -/
theorem decodeBytes_ok_inv {cf : Bool} {buf out : List Byte} (h : decodeBytes cf buf = .ok out) :
    buf.length % 8 = 0 ∧ trailPad buf ∈ validPadCounts ∧
      out = bufferBytes (dataPart (buf.map (foldIf cf))) (buf.length / 8) := by
  by_cases hbad : buf.length % 8 ≠ 0 ∨ trailPad (buf.map (foldIf cf)) ∉ validPadCounts
  · simp [decodeBytes_of_bad_count hbad] at h
  · obtain ⟨h8, hp⟩ := not_or.mp hbad
    rw [not_not] at h8 hp
    by_cases hx : ∃ x ∈ dataPart (buf.map (foldIf cf)), revValid (revRom x) = false
    · simp [decodeBytes_of_invalid rfl (length_map_foldIf cf h8) hp hx] at h
    · rw [decodeBytes_of_valid rfl (length_map_foldIf cf h8) hp (by simpa using hx)] at h
      exact ⟨h8, trailPad_map_foldIf cf buf ▸ hp, (Except.ok.inj h).symm⟩

/-- Settles O32: a DECODE that ends with OK had no error, so its output is that of its data symbols. -/
theorem decodeOutputLength : Obligations.DecodeOutputLength := by
  intro p cf r hc hok
  obtain ⟨out, hb, hr⟩ := respond_decode_ok_inv hc hok
  obtain ⟨h8, hp, rfl⟩ := decodeBytes_ok_inv hb
  have hp6 := le_six_of_mem_validPadCounts hp
  have hd : (dataPart (r.input.map (foldIf cf))).length = r.input.length - trailPad r.input := by
    rw [length_dataPart, trailPad_map_foldIf, List.length_map]
  have hle := trailPad_le_length r.input
  refine ⟨_, leftBytes_of_mem hp, ?_⟩
  rw [hr, Response.outLen, buffer_out, length_bufferBytes (by omega), hd, Request.len]
  split <;> omega

/-- R129: a buffer of eight bytes is one last quantum. -/
theorem decodeBytes_of_length_eight {cf : Bool} {buf c : List Byte} (hc : buf.map (foldIf cf) = c)
    (hlen : c.length = 8) :
    decodeBytes cf buf = (decodeQuantum true c).map fun x => (List.range x.2).map (quantumByte x.1) := by
  by_cases hp : trailPad c ∈ validPadCounts
  · have hq : quantumAt c 0 = c := by simp [quantumAt, hlen]
    rw [decodeBytes_eq_decodeQuanta (n := 1) hc hlen hp, List.range_one, decodeQuanta, hq, decide_eq_true rfl]
    cases decodeQuantum true c <;> rfl
  · rw [decodeBytes_of_bad_count (.inr (by rwa [hc])), decodeQuantum_of_bad_count (last := true) hp]
    rfl

/-- R129, on the rules of the two operations. -/
theorem decodeResponse_agrees_decqResponse (cf : Bool) {r r' : Request}
    (h : r.input = (List.range 8).map (wordLane r'.opw)) :
    (decodeResponse cf r).status = (decqResponse cf true r').status ∧
      ((decodeResponse cf r).status = .ok → (decodeResponse cf r).out =
        (List.range (decqResponse cf true r').rcnt.toNat).map fun k =>
          (decqResponse cf true r').rw.extractLsb' (32 - 8 * k) 8) := by
  have hb := decodeBytes_of_length_eight (cf := cf) (buf := r.input) (c := decqSymbols cf r'.opw)
    (by simp [h, decqSymbols, quantumSymbol]) (length_decqSymbols cf r'.opw)
  rcases decodeQuantum_cases true (decqSymbols cf r'.opw) with ⟨-, hq⟩ | ⟨n, hn, ⟨hq, -⟩ | ⟨v, -, hq⟩⟩ <;> rw [hq] at hb
  · rw [decodeResponse_of_error hb, decqResponse_of_error hq]
    simp
  · rw [decodeResponse_of_error hb, decqResponse_of_error hq]
    simp
  · obtain ⟨-, -, hn⟩ := leftBytes_bounds hn
    rw [decodeResponse_of_ok hb, decqResponse_of_ok hq]
    refine ⟨rfl, fun _ => ?_⟩
    rw [buffer_out, word_rcnt, word_rw, BitVec.toNat_ofNat, Nat.mod_eq_of_lt (by omega)]
    refine List.map_congr_left fun k hk => (extractLsb'_setWidth_quantumByte _ ?_).symm
    exact (List.mem_range.mp hk).trans_le hn

/-- Settles O33: both requests are legal, and the two rules agree. -/
theorem decodeAgreesWithDecqLast : Obligations.DecodeAgreesWithDecqLast := by
  intro p cf opw other junk hmax
  rw [respond_decode_of_le (cf := cf) rfl (by simpa [Request.len] using hmax), respond_decq_last (cf := cf) rfl]
  exact decodeResponse_agrees_decqResponse cf rfl

/-! ## The discarded bits of a padded quantum (R124) -/

/-- R126: the padding behind data without `=`. -/
theorem trailPad_append_of_notMem (a : List Byte) {d : List Byte} (hne : d ≠ []) (hd : padChar ∉ d) (n : Nat) :
    trailPad (a ++ d ++ List.replicate n padChar) = n := by
  refine trailPad_append_replicate (fun h => hd ?_) n
  rw [List.getLast?_append_of_ne_nil _ hne] at h
  exact List.mem_of_getLast? h

/-- R124: above its discarded low `m` bits, an index put at bit `s` shows the bits it has above them. -/
theorem extractLsb'_shiftLeft_congr {a b : Index} {m s : Nat} (h : a >>> m = b >>> m) {i : Nat} (hi : s + m ≤ i)
    (len : Nat) : (a.setWidth 40 <<< s).extractLsb' i len = (b.setWidth 40 <<< s).extractLsb' i len := by
  ext j hj
  have hbit := congrArg (BitVec.getLsbD · (i + j - s - m)) h
  simp only [BitVec.getLsbD_ushiftRight, show m + (i + j - s - m) = i + j - s by omega] at hbit
  simp [hbit]

/-- R122: data symbols and their padding decode. -/
theorem decodeQuantum_padded {p : Nat} {d : List Byte} (hp : p ∈ validPadCounts) (hlen : d.length = 8 - p)
    (hd : ∀ x ∈ d, revValid (revRom x) = true) :
    decodeQuantum true (d ++ List.replicate p padChar) =
      .ok (quantumOf (keptByte (5 * (8 - p) / 8) (dataQuantum d)), 5 * (8 - p) / 8) := by
  have hp6 := le_six_of_mem_validPadCounts hp
  have hpad : padCount true (d ++ List.replicate p padChar) = p := by
    refine trailPad_append_of_notMem [] (List.ne_nil_of_length_pos (by omega)) (fun hmem => ?_) p
    exact absurd (hd _ hmem) (by decide)
  have htake : (d ++ List.replicate p padChar).take (8 - p) = d := by rw [← hlen, List.take_left]
  rw [decodeQuantum_of_valid (by rwa [hpad]) (by rwa [hpad, htake]), hpad, htake]

/-- R124: a byte above the discarded low `m` bits of the last data symbol does not depend on them. -/
theorem quantumByte_dataQuantum_congr {d : List Byte} {x y : Byte} {m k : Nat} (hlen : d.length < 8)
    (h : revIdx (revRom x) >>> m = revIdx (revRom y) >>> m) (hk : 35 - 5 * d.length + m ≤ 32 - 8 * k) :
    quantumByte (dataQuantum (d ++ [x])) k = quantumByte (dataQuantum (d ++ [y])) k := by
  rw [dataQuantum_append_singleton x hlen, dataQuantum_append_singleton y hlen, quantumByte_or, quantumByte_or]
  exact congrArg _ (extractLsb'_shiftLeft_congr h hk 8)

/-- Settles O28: both quanta decode, and every kept byte lies above the discarded bits. -/
theorem discardedBitsAreAccepted : Obligations.DiscardedBitsAreAccepted := by
  intro p front a b hp hlen hab
  have hp' : p ∈ validPadCounts := List.mem_cons_of_mem 0 hp
  have hp6 := le_six_of_mem_validPadCounts hp'
  have hd (x : Index) : decodeQuantum true (front.map fwdRom ++ [fwdRom x] ++ List.replicate p padChar) =
      .ok (quantumOf (keptByte (5 * (8 - p) / 8) (dataQuantum (front.map fwdRom ++ [fwdRom x]))), 5 * (8 - p) / 8) := by
    refine decodeQuantum_padded hp' (by simp [hlen]; omega) fun y hy => (revValid_revRom_iff y).mpr ?_
    rw [← List.map_singleton, ← List.map_append, List.mem_map] at hy
    exact hy.imp fun _ => And.right
  have hbytes : quantumOf (keptByte (5 * (8 - p) / 8) (dataQuantum (front.map fwdRom ++ [fwdRom a]))) =
      quantumOf (keptByte (5 * (8 - p) / 8) (dataQuantum (front.map fwdRom ++ [fwdRom b]))) := by
    refine eq_of_quantumByte_eq fun k hk => ?_
    rw [quantumByte_quantumOf_keptByte _ _ hk, quantumByte_quantumOf_keptByte _ _ hk]
    refine ite_congr rfl (fun hkn => ?_) fun _ => rfl
    refine quantumByte_dataQuantum_congr (by simp [hlen]; omega) (by simpa using hab) ?_
    rw [List.length_map, hlen]
    omega
  exact ⟨_, hd a, hbytes ▸ hd b⟩

/-! ## DECODE after ENCODE (R130) -/

/-- R101, R103: the data symbols of group `q`. -/
def groupSymbols (b : List Byte) (q : Nat) : List Byte :=
  (List.range (8 - pads (groupSize b.length q))).map fun j => fwdRom (symbolIndex (groupQuantum (groupSize b.length q)
    fun k => memRead b (5 * q + k)) j)

theorem encodeGroup_eq (b : List Byte) (q : Nat) :
    encodeGroup b q = groupSymbols b q ++ List.replicate (pads (groupSize b.length q)) padChar :=
  map_encSymbol_range _ _

theorem length_groupSymbols (b : List Byte) (q : Nat) :
    (groupSymbols b q).length = 8 - pads (groupSize b.length q) := by
  simp [groupSymbols]

theorem exists_fwdRom_of_mem_groupSymbols {b : List Byte} {q : Nat} {x : Byte} (h : x ∈ groupSymbols b q) :
    ∃ i, fwdRom i = x := by
  obtain ⟨j, -, rfl⟩ := List.mem_map.mp h
  exact ⟨_, rfl⟩

theorem groupSize_pos {n q : Nat} (hq : q < groupCount n) : 1 ≤ groupSize n q := by
  rw [groupCount] at hq
  rw [groupSize]
  omega

theorem groupSize_le (n q : Nat) : groupSize n q ≤ 5 := Nat.min_le_left _ _

/-- R41: bit `m` of a quantum is bit `m % 8` of the byte it lies in. -/
theorem getLsbD_eq_quantumByte (v : Quantum) {m : Nat} (hm : m < 40) :
    v.getLsbD m = (quantumByte v (4 - m / 8)).getLsbD (m % 8) := by
  simp [quantumByte, Nat.mod_lt, show 32 - 8 * (4 - m / 8) + m % 8 = m by omega]

/-- R102: the indices beyond the real bytes are zero. -/
theorem symbolIndex_groupQuantum_of_le {nb j : Nat} (g : Nat → Byte) (hj : j < 8) (h : 8 * nb ≤ 5 * j) :
    symbolIndex (groupQuantum nb g) j = 0#5 := by
  ext b hb
  rw [symbolIndex, BitVec.getElem_extractLsb', getLsbD_eq_quantumByte _ (by omega),
    quantumByte_groupQuantum _ _ (by omega), if_neg (by omega)]
  simp

/-- R130: the data symbols of a group give its quantum back. -/
theorem dataQuantum_groupSymbols {b : List Byte} {q : Nat} (hq : q < groupCount b.length) :
    dataQuantum (groupSymbols b q) = groupQuantum (groupSize b.length q) fun k => memRead b (5 * q + k) := by
  have hlen := length_groupSymbols b q
  have hpads := eight_sub_pads (groupSize_pos hq) (groupSize_le _ _)
  refine eq_of_symbolIndex_eq fun j hj => ?_
  rw [symbolIndex_dataQuantum (by omega) hj, hlen]
  split
  · next hlt => simp [groupSymbols, hlt]
  · next hge => exact (symbolIndex_groupQuantum_of_le _ hj (by omega)).symm

/-- R130, group by group: the data symbols of a group give its bytes back. -/
theorem quantumBytes_groupSymbols {b : List Byte} {q : Nat} (hq : q < groupCount b.length) :
    quantumBytes (groupSymbols b q) = (b.drop (5 * q)).take 5 := by
  have hpads := eight_sub_pads (groupSize_pos hq) (groupSize_le _ _)
  have hle := groupSize_le b.length q
  rw [quantumBytes, dataQuantum_groupSymbols hq, length_groupSymbols,
    show 5 * (8 - pads (groupSize b.length q)) / 8 = groupSize b.length q by omega]
  refine List.ext_getElem (by simp [groupSize]) fun k hk hk' => ?_
  rw [List.length_map, List.length_range] at hk
  rw [List.length_take, List.length_drop] at hk'
  rw [List.getElem_map, List.getElem_range, quantumByte_groupQuantum _ _ (by omega), if_pos hk, List.getElem_take,
    List.getElem_drop]
  exact List.getD_eq_getElem _ _ _

/-- R103: the quanta of the output are the groups. -/
theorem quantumAt_encodeBytes {b : List Byte} {q : Nat} (hq : q < groupCount b.length) :
    quantumAt (encodeBytes b) q = encodeGroup b q := by
  refine List.ext_getElem? fun j => ?_
  by_cases hj : j < 8
  · rw [quantumAt, List.getElem?_take_of_lt hj, List.getElem?_drop, getElem?_encodeBytes b hq hj]
  · rw [quantumAt, List.getElem?_take_eq_none (by omega), List.getElem?_eq_none (by simp; omega)]

/-- R104: the trailing padding of an output is that of its last group. -/
theorem trailPad_encodeBytes {b : List Byte} {n : Nat} (hn : groupCount b.length = n + 1) :
    trailPad (encodeBytes b) = pads (groupSize b.length n) := by
  have hpads := pads_le (groupSize b.length n)
  have hlen := length_groupSymbols b n
  rw [encodeBytes, hn, List.range_succ, List.flatMap_append, List.flatMap_singleton, encodeGroup_eq,
    ← List.append_assoc]
  refine trailPad_append_of_notMem _ (List.ne_nil_of_length_pos (by omega)) (fun h => ?_) _
  obtain ⟨i, hi⟩ := exists_fwdRom_of_mem_groupSymbols h
  exact fwdRom_ne_padChar i hi

theorem trailPad_encodeBytes_mem (b : List Byte) : trailPad (encodeBytes b) ∈ validPadCounts := by
  rcases hn : groupCount b.length with _ | n
  · rw [encodeBytes, hn]
    exact List.mem_cons_self
  · rw [trailPad_encodeBytes hn]
    exact (leftBytes_eq_some_iff.mp (leftBytes_pads (groupSize_pos (hn ▸ Nat.lt_succ_self n)) (groupSize_le _ _))).1

theorem quantumAt_dataPart_encodeBytes {b : List Byte} {q : Nat} (hq : q < groupCount b.length) :
    quantumAt (dataPart (encodeBytes b)) q = groupSymbols b q := by
  have hp6 := le_six_of_mem_validPadCounts (trailPad_encodeBytes_mem b)
  have hpads : (if q + 1 = groupCount b.length then trailPad (encodeBytes b) else 0) = pads (groupSize b.length q) := by
    split
    · next hlast => exact trailPad_encodeBytes hlast.symm
    · next hlast =>
      rw [groupCount] at hq hlast
      rw [groupSize, Nat.min_eq_left (by omega), pads]
  rw [← take_quantumAt (encodeBytes_length b) (by omega) hq, padCount_quantumAt (encodeBytes_length b) (by omega),
    hpads, quantumAt_encodeBytes hq, encodeGroup_eq, ← length_groupSymbols, List.take_left]

/-- R130: a buffer that folds to an encoding decodes to what was encoded. -/
theorem decodeBytes_of_fold_eq_encodeBytes {cf : Bool} {buf b : List Byte} (h : buf.map (foldIf cf) = encodeBytes b) :
    decodeBytes cf buf = .ok b := by
  have hlen := encodeBytes_length b
  have hvalid : ∀ x ∈ dataPart (encodeBytes b), revValid (revRom x) = true := by
    intro x hx
    obtain ⟨q, hq, hxq⟩ := exists_mem_quantumAt (n := groupCount b.length) (by rw [length_dataPart]; omega) hx
    rw [quantumAt_dataPart_encodeBytes hq] at hxq
    exact (revValid_revRom_iff x).mpr (exists_fwdRom_of_mem_groupSymbols hxq)
  rw [decodeBytes_of_valid h hlen (trailPad_encodeBytes_mem b) hvalid]
  congr 1
  calc bufferBytes (dataPart (encodeBytes b)) (groupCount b.length)
    _ = (List.range (groupCount b.length)).flatMap fun q => (b.drop (5 * q)).take 5 :=
      List.flatMap_congr fun q hq => by
        rw [quantumAt_dataPart_encodeBytes (List.mem_range.mp hq), quantumBytes_groupSymbols (List.mem_range.mp hq)]
    _ = b.take (5 * groupCount b.length) := flatMap_range_take_drop b 5 _
    _ = b := List.take_of_length_le (by rw [groupCount]; omega)

/-- R105: no byte of an output lies above `Z`. -/
theorem toNat_le_of_mem_encodeBytes {b : List Byte} {x : Byte} (h : x ∈ encodeBytes b) : x.toNat ≤ 0x5A := by
  obtain ⟨q, -, hq⟩ := List.mem_flatMap.mp h
  rcases mem_encodeGroup hq with rfl | ⟨i, rfl⟩
  · decide
  · exact toNat_fwdRom_le i

theorem map_foldIf_encodeBytes (cf : Bool) (b : List Byte) : (encodeBytes b).map (foldIf cf) = encodeBytes b := by
  refine (List.map_congr_left fun x hx => ?_).trans (List.map_id _)
  have hle := toNat_le_of_mem_encodeBytes hx
  cases cf
  · rfl
  · exact fold_of_not_lower (by omega)

theorem decodeBytes_encodeBytes (cf : Bool) (b : List Byte) : decodeBytes cf (encodeBytes b) = .ok b :=
  decodeBytes_of_fold_eq_encodeBytes (map_foldIf_encodeBytes cf b)

/-- Settles O34: both requests are legal, and the fold leaves an encoding as it is. -/
theorem decodeOfEncodeGivesBytesBack : Obligations.DecodeOfEncodeGivesBytesBack := by
  intro p b cf opw opw' hb he
  rw [out_encode_of_le opw hb]
  exact respond_decode_of_ok rfl ((encodeBytes_length b).trans_le he) (decodeBytes_encodeBytes cf b)

/-! ## Lower-cased encodings (R131) -/

theorem toNat_lowerCase_of_upper {c : Byte} (h : 0x41 ≤ c.toNat ∧ c.toNat ≤ 0x5A) :
    (lowerCase c).toNat = c.toNat + 0x20 := by
  rw [lowerCase, if_pos h, BitVec.toNat_add_of_lt (by simp; omega)]
  rfl

/-- R131: the fold undoes the lower-casing. -/
theorem fold_lowerCase {c : Byte} (h : c.toNat ≤ 0x5A) : fold (lowerCase c) = c := by
  by_cases hc : 0x41 ≤ c.toNat ∧ c.toNat ≤ 0x5A
  · have hl := toNat_lowerCase_of_upper hc
    rw [← BitVec.toNat_inj, toNat_fold_of_lower (by omega), hl, Nat.add_sub_cancel]
  · rw [lowerCase, if_neg hc, fold_of_not_lower (by omega)]

theorem map_fold_lowerCase_encodeBytes (b : List Byte) :
    ((encodeBytes b).map lowerCase).map (foldIf true) = encodeBytes b := by
  rw [List.map_map]
  exact (List.map_congr_left fun x hx => fold_lowerCase (toNat_le_of_mem_encodeBytes hx)).trans (List.map_id _)

/-- R85 (d): a lower-cased letter is no symbol. -/
theorem revValid_lowerCase_of_upper {c : Byte} (h : 0x41 ≤ c.toNat ∧ c.toNat ≤ 0x5A) :
    revValid (revRom (lowerCase c)) = false := by
  rw [← Bool.not_eq_true, revValid_revRom_iff]
  rintro ⟨i, hi⟩
  have hle := toNat_fwdRom_le i
  rw [hi, toNat_lowerCase_of_upper h] at hle
  omega

theorem lowerCase_eq_padChar_iff (x : Byte) : lowerCase x = padChar ↔ x = padChar := by
  revert x
  decide

/-- R131: without the fold a lower-cased letter is an invalid digit. -/
theorem decodeBytes_lowerCase_of_letter {b : List Byte}
    (h : ∃ c ∈ encodeBytes b, 0x41 ≤ c.toNat ∧ c.toNat ≤ 0x5A) :
    decodeBytes false ((encodeBytes b).map lowerCase) = .error .invalidDigit := by
  obtain ⟨c, hc, hletter⟩ := h
  refine decodeBytes_of_invalid (n := groupCount b.length) (List.map_id _) ?_ ?_
    ⟨lowerCase c, mem_dataPart (List.mem_map_of_mem hc) ?_, revValid_lowerCase_of_upper hletter⟩
  · rw [List.length_map, encodeBytes_length]
  · rw [trailPad_map lowerCase_eq_padChar_iff]
    exact trailPad_encodeBytes_mem b
  · rw [Ne, lowerCase_eq_padChar_iff]
    rintro rfl
    exact absurd hletter (by decide)

/-- Settles O35: the fold gives the encoding back, and without it a lower-cased letter is no symbol. -/
theorem caseOfEncodedText : Obligations.CaseOfEncodedText := by
  intro p b opw hb he
  dsimp only
  rw [out_encode_of_le opw hb]
  have hlen : (encodeBytes b).length ≤ p.maxInLen := (encodeBytes_length b).trans_le he
  have hlow : ((encodeBytes b).map lowerCase).length ≤ p.maxInLen := by rwa [List.length_map]
  refine ⟨?_, ?_, fun h => ?_, ?_⟩
  · exact respond_decode_of_ok (cf := true) rfl hlow
      (decodeBytes_of_fold_eq_encodeBytes (map_fold_lowerCase_encodeBytes b))
  · exact respond_decode_of_ok (cf := true) rfl hlen (decodeBytes_encodeBytes true b)
  · exact respond_decode_of_error (cf := false) rfl hlow (decodeBytes_lowerCase_of_letter h)
  · exact respond_decode_of_ok (cf := false) rfl hlen (decodeBytes_encodeBytes false b)

/-! ## Host decode after host encode (R130, R156) -/

theorem issueDecode_encodeBytes {p : Params} (cf : Bool) {b : List Byte} (h : (encodeBytes b).length ≤ p.maxInLen) :
    issueDecode p cf (encodeBytes b) = .done b := by
  rcases issueDecode_of_le (cf := cf) h with ⟨out, hb, hi⟩ | ⟨hb, -⟩ | ⟨hb, -⟩ <;> rw [decodeBytes_encodeBytes] at hb
  · rw [hi, Except.ok.inj hb]
  · cases hb
  · cases hb

/-- R156: cutting an encoding into whole quanta cuts the data into as many whole groups. -/
theorem pieces_encodeBytes {k : Nat} (hk : 0 < k) {fuel fuel' : Nat} {data : List Byte} (hf : data.length ≤ fuel)
    (hf' : (encodeBytes data).length ≤ fuel') :
    pieces (8 * k) fuel' (encodeBytes data) = (pieces (5 * k) fuel data).map encodeBytes := by
  induction fuel generalizing fuel' data with
  | zero =>
    obtain rfl := List.length_eq_zero_iff.mp (Nat.le_zero.mp hf)
    cases fuel' <;> simp [pieces, encodeBytes, groupCount]
  | succ m ih =>
    have hlen := encodeBytes_length data
    rw [groupCount] at hlen
    rcases fuel' with _ | m'
    · obtain rfl : data = [] := (encodeBytes_eq_nil_iff data).mp (List.length_eq_zero_iff.mp (Nat.le_zero.mp hf'))
      simp [pieces]
    · by_cases hd : data.length ≤ 5 * k
      · rw [pieces, pieces, if_pos hd, if_pos (by omega), List.map_singleton]
      · have ha : (data.take (5 * k)).length = 5 * k := List.length_take_of_le (by omega)
        have hsplit := encodeBytes_append (data.drop (5 * k)) ha
        rw [List.take_append_drop] at hsplit
        have hla : (encodeBytes (data.take (5 * k))).length = 8 * k := by rw [encodeBytes_length, groupCount]; omega
        rw [pieces, pieces, if_neg hd, if_neg (by omega), List.map_cons, hsplit, ← hla, List.take_left,
          List.drop_left, hla, ih (by simp; omega)]
        rw [hsplit, List.length_append] at hf'
        omega

/-- Collecting the results for mapped parts is collecting under the composed request. -/
theorem collect_map (issue : List Byte → HostResult) (g : List Byte → List Byte) (parts : List (List Byte))
    (out : List Byte) : collect issue (parts.map g) out = collect (issue ∘ g) parts out := by
  induction parts generalizing out with
  | nil => rfl
  | cons b rest ih =>
    rw [List.map_cons, collect, collect, Function.comp_apply]
    cases issue (g b) <;> simp only [ih]

/-- R156: host encode of bytes, in one piece or in several. -/
theorem hostEncode_bytes {p : Params} (data : List Byte) (h : 5 ≤ p.maxInLen) :
    hostEncode p (.bytes data) = .done (encodeBytes data) := by
  by_cases hle : data.length ≤ p.maxInLen
  · rw [hostEncode, if_pos hle, issueEncode_of_le hle]
  · have hk : 0 < p.maxInLen / 5 := by omega
    have hdone : ∀ b ∈ pieces (5 * (p.maxInLen / 5)) data.length data, issueEncode p b = .done (encodeBytes b) :=
      fun b hb => issueEncode_of_le ((pieces_length_le (by omega) (Nat.le_refl _) b hb).trans (Nat.mul_div_le _ _))
    rw [hostEncode, if_neg hle, splitEncode, if_neg (by omega), collect_done hdone, List.nil_append,
      List.flatMap_def, ← pieces_encodeBytes hk (Nat.le_refl _) (Nat.le_refl _), pieces_flatten]

/-- Every piece but the last is full. -/
theorem length_of_mem_dropLast_pieces {k fuel : Nat} {data b : List Byte} (h : b ∈ (pieces k fuel data).dropLast) :
    b.length = k := by
  induction fuel generalizing data with
  | zero => simp [pieces] at h
  | succ m ih =>
    rw [pieces] at h
    split at h
    · simp at h
    · next hd =>
      rw [List.dropLast_cons_of_ne_nil (pieces_ne_nil _ _ _), List.mem_cons] at h
      rcases h with rfl | h
      · exact List.length_take_of_le (by omega)
      · exact ih h

/-- R104: whole groups leave no padding. -/
theorem trailPad_encodeBytes_of_length {b : List Byte} {k : Nat} (hb : b.length = 5 * k) :
    trailPad (encodeBytes b) = 0 := by
  rcases k with _ | k
  · obtain rfl := List.length_eq_zero_iff.mp hb
    rfl
  · rw [trailPad_encodeBytes (n := k) (by rw [groupCount]; omega), groupSize, Nat.min_eq_left (by omega), pads]

theorem issueInnerDecode_encodeBytes {p : Params} (cf : Bool) {b : List Byte} {k : Nat} (hb : b.length = 5 * k)
    (h : (encodeBytes b).length ≤ p.maxInLen) : issueInnerDecode p cf (encodeBytes b) = .done b := by
  rw [issueInnerDecode, if_neg (not_not.mpr (trailPad_encodeBytes_of_length hb)), issueDecode_encodeBytes cf h]

/-- R156: a split decode whose pieces all decode. -/
theorem splitDecode_of_pieces {p : Params} {cf : Bool} {data last final out : List Byte} {init : List (List Byte)}
    (h8 : data.length % 8 = 0) (hk : 8 ≤ p.maxInLen)
    (hparts : pieces (8 * (p.maxInLen / 8)) data.length data = init ++ [last])
    (hlast : issueDecode p cf last = .done final) (hinit : collect (issueInnerDecode p cf) init [] = .done out) :
    splitDecode p cf data = .done (out ++ final) := by
  rw [splitDecode, if_neg (by omega), if_neg (by omega), hparts]
  simp [hlast, hinit]

theorem splitDecode_encodeBytes {p : Params} (cf : Bool) (b : List Byte) (h : 8 ≤ p.maxInLen) :
    splitDecode p cf (encodeBytes b) = .done b := by
  have hk : 0 < p.maxInLen / 8 := by omega
  have hlen := encodeBytes_length b
  rcases List.eq_nil_or_concat' (pieces (5 * (p.maxInLen / 8)) b.length b) with hnil | ⟨init, last, hparts⟩
  · exact absurd hnil (pieces_ne_nil _ _ _)
  · have hle : ∀ d ∈ init ++ [last], (encodeBytes d).length ≤ p.maxInLen := by
      intro d hd
      have hd := pieces_length_le (by omega) (Nat.le_refl _) d (hparts ▸ hd)
      rw [encodeBytes_length, groupCount]
      omega
    have hfull : ∀ d ∈ init, d.length = 5 * (p.maxInLen / 8) := fun d hd =>
      length_of_mem_dropLast_pieces (by rwa [hparts, List.dropLast_concat])
    have hinit : ∀ d ∈ init, (issueInnerDecode p cf ∘ encodeBytes) d = .done (id d) := fun d hd =>
      issueInnerDecode_encodeBytes cf (hfull d hd) (hle d (List.mem_append_left _ hd))
    have hlast := issueDecode_encodeBytes cf (hle last List.mem_concat_self)
    rw [splitDecode_of_pieces (init := init.map encodeBytes) (by omega) h ?_ hlast
      ((collect_map _ _ _ _).trans (collect_done hinit []))]
    · simpa [hparts] using pieces_flatten (5 * (p.maxInLen / 8)) b.length b
    · rw [pieces_encodeBytes hk (Nat.le_refl b.length) (Nat.le_refl _), hparts, List.map_append, List.map_singleton]

theorem hostDecode_encodeBytes {p : Params} (cf : Bool) (b : List Byte) (h : 8 ≤ p.maxInLen) :
    hostDecode p (.bytes (encodeBytes b)) cf = .done b := by
  rw [hostDecode, normalise]
  dsimp only
  split
  · next hle => exact issueDecode_encodeBytes cf hle
  · exact splitDecode_encodeBytes cf b h

/-- R153: text of ASCII bytes is normalised to those bytes. -/
theorem normalise_text_of_ascii {e : List Byte} (h : ∀ x ∈ e, x.toNat < 0x80) :
    normalise (.text (e.map BitVec.toNat)) = normalise (.bytes e) := by
  have hall : (e.map BitVec.toNat).all (fun c => decide (c < 0x80)) = true := by
    simpa using h
  rw [normalise, if_pos hall, List.map_map, normalise]
  congr 1
  exact (List.map_congr_left fun x _ => by simp).trans (List.map_id _)

/-- Settles O60: host decode gives an encoding's data back, and an encoding is ASCII text. -/
theorem hostRoundTrip : Obligations.HostRoundTrip := by
  intro p data cf h
  have hbytes := hostDecode_encodeBytes cf data h
  refine ⟨encodeBytes data, hostEncode_bytes data (by omega), hbytes, ?_⟩
  rw [← hbytes, hostDecode, hostDecode, normalise_text_of_ascii]
  exact fun x hx => (toNat_le_of_mem_encodeBytes hx).trans_lt (by decide)

end Sys2Proof.Machine
end

section
/-! PROOFS. The statements of 43_host_interface.md: normalisation (R153), the requests the host issues (R151, R152),
splitting (R156), and how the host operations end (R154, R157). -/

namespace Sys2Proof.Machine

open Sys2Proof

/-! ## Normalisation (R153) -/

theorem normalise_text_of_lt {points : List Nat} (h : ∀ c ∈ points, c < 0x80) :
    normalise (.text points) = .ok (points.map (BitVec.ofNat 8)) :=
  if_pos (by simpa using h)

theorem normalise_text_of_ge {points : List Nat} (h : ∃ c ∈ points, 0x80 ≤ c) :
    normalise (.text points) = .error .nonAsciiInput :=
  if_neg (by simpa using h)

theorem hostDecode_of_error {x : HostValue} {e : HostError} (p : Params) (cf : Bool) (h : normalise x = .error e) :
    hostDecode p x cf = .failed e := by
  simp only [hostDecode, h]

theorem hostDecode_of_ok {x : HostValue} {data : List Byte} (p : Params) (cf : Bool) (h : normalise x = .ok data) :
    hostDecode p x cf = if data.length ≤ p.maxInLen then issueDecode p cf data else splitDecode p cf data := by
  simp only [hostDecode, h]

/-- Settles O55: text is ASCII or fails, and host decode looks at nothing but the normalised input. -/
theorem hostNormalisesFirst : Obligations.HostNormalisesFirst := by
  intro p cf
  refine ⟨fun points h => ⟨normalise_text_of_lt h, ?_⟩, fun points h => ?_, fun _ => rfl, rfl⟩
  · exact (hostDecode_of_ok p cf (normalise_text_of_lt h)).trans (hostDecode_of_ok p cf rfl).symm
  · exact hostDecode_of_error p cf (normalise_text_of_ge h)

/-! ## The requests (R151, R152) -/

theorem cmd_decodeRequest (cf : Bool) (data : List Byte) : (decodeRequest cf data).cmd = decodeWord cf := by
  cases cf <;> rfl

/-- Settles O56: the words decode to ENCODE and DECODE, whose legality is the bound on the length. -/
theorem hostRequestsAreLegal : Obligations.HostRequestsAreLegal := by
  intro p data hl
  refine ⟨?_, rfl, rfl, fun cf => ⟨?_, cmd_decodeRequest cf data, rfl⟩⟩
  · exact (not_illegalRequest_iff p _).mpr ⟨.encode, decode_encodeRequest data, decide_eq_true hl⟩
  · exact (not_illegalRequest_iff p _).mpr ⟨.decode cf, decode_decodeRequest cf data, decide_eq_true hl⟩

/-! ## Encoding in pieces (R156) -/

/-- Settles O58: in one piece or in several, host encode gives the encoding of the whole input. -/
theorem hostSplitEncodeAgrees : Obligations.HostSplitEncodeAgrees := by
  intro p data h
  rw [hostEncode_bytes data h]
  exact congrArg HostResult.done (out_encode_of_le 0#64 (Nat.le_refl _)).symm

/-! ## Padding and data of a buffer in two parts (R126) -/

/-- The count runs on into the front part only through a back part that is all padding. -/
theorem trailPad_append (a b : List Byte) :
    trailPad (a ++ b) = if trailPad b = b.length then b.length + trailPad a else trailPad b := by
  rw [trailPad, List.reverse_append, List.takeWhile_append, apply_ite List.length, List.length_append,
    List.length_reverse]
  rfl

theorem trailPad_append_of_lt (a : List Byte) {b : List Byte} (h : trailPad b < b.length) :
    trailPad (a ++ b) = trailPad b := by
  rw [trailPad_append, if_neg h.ne]

/-- R121: of a back part that holds a whole quantum, the count is accepted as that of the whole buffer is. -/
theorem trailPad_append_mem_iff (a : List Byte) {b : List Byte} (h : 8 ≤ b.length) :
    trailPad (a ++ b) ∈ validPadCounts ↔ trailPad b ∈ validPadCounts := by
  rw [trailPad_append]
  split
  · next hall =>
    have hbig : ∀ n, 8 ≤ n → n ∉ validPadCounts := fun n hn hmem => by
      have := le_six_of_mem_validPadCounts hmem
      omega
    exact iff_of_false (hbig _ (by omega)) (hbig _ (by omega))
  · rfl

theorem dataPart_append_of_lt (a : List Byte) {b : List Byte} (h : trailPad b < b.length) :
    dataPart (a ++ b) = a ++ dataPart b := by
  rw [dataPart, trailPad_append_of_lt a h, List.length_append, Nat.add_sub_assoc h.le, List.take_length_add_append,
    dataPart]

theorem dataPart_of_trailPad_eq_zero {b : List Byte} (h : trailPad b = 0) : dataPart b = b := by
  rw [dataPart, h, Nat.sub_zero, List.take_length]

/-! ## DECODE by its data symbols (R125) -/

/-- Every byte of the folded buffer is a symbol. -/
def AllSymbols (cf : Bool) (d : List Byte) : Prop := ∀ x ∈ d.map (foldIf cf), revValid (revRom x) = true

theorem allSymbols_append {cf : Bool} {a b : List Byte} : AllSymbols cf (a ++ b) ↔ AllSymbols cf a ∧ AllSymbols cf b := by
  simp only [AllSymbols, List.map_append, List.forall_mem_append]

theorem allSymbols_flatten {cf : Bool} {parts : List (List Byte)} :
    AllSymbols cf parts.flatten ↔ ∀ b ∈ parts, AllSymbols cf b := by
  simp only [AllSymbols, List.map_flatten, List.forall_mem_flatten, List.forall_mem_map]

/-- `=` is no symbol. -/
theorem trailPad_of_allSymbols {cf : Bool} {b : List Byte} (h : AllSymbols cf b) : trailPad b = 0 := by
  have hlast : b.getLast? ≠ some padChar := fun hl =>
    absurd (h padChar (List.mem_map.mpr ⟨_, List.mem_of_getLast? hl, (foldIf_eq_padChar_iff cf _).mpr rfl⟩)) (by decide)
  simpa using trailPad_append_replicate hlast 0

/-- R125: the real bytes of the data symbols `d`, folded; the last quantum may be short. -/
def symbolBytes (cf : Bool) (d : List Byte) : List Byte := bufferBytes (d.map (foldIf cf)) ((d.length + 7) / 8)

theorem bufferBytes_append {a : List Byte} (d : List Byte) {m : Nat} (ha : a.length = 8 * m) (n : Nat) :
    bufferBytes (a ++ d) (m + n) = bufferBytes a m ++ bufferBytes d n := by
  rw [bufferBytes, List.range_add, List.flatMap_append, List.flatMap_map, bufferBytes, bufferBytes]
  congr 1
  · refine List.flatMap_congr fun q hq => ?_
    have hq : q < m := List.mem_range.mp hq
    rw [quantumAt, quantumAt, List.drop_append_of_le_length (by omega),
      List.take_append_of_le_length (by rw [List.length_drop]; omega)]
  · refine List.flatMap_congr fun q _ => ?_
    rw [quantumAt, quantumAt, Nat.mul_add, ← ha, List.drop_length_add_append]

/-- R156: whole quanta in front leave the bytes behind them as they are. -/
theorem symbolBytes_append (cf : Bool) {a : List Byte} (d : List Byte) (ha : a.length % 8 = 0) :
    symbolBytes cf (a ++ d) = symbolBytes cf a ++ symbolBytes cf d := by
  have hcount : ((a ++ d).length + 7) / 8 = (a.length + 7) / 8 + (d.length + 7) / 8 := by
    rw [List.length_append]
    omega
  rw [symbolBytes, hcount, List.map_append]
  exact bufferBytes_append _ (by rw [List.length_map]; omega) _

theorem symbolBytes_flatten (cf : Bool) {parts : List (List Byte)} (h : ∀ b ∈ parts, b.length % 8 = 0) :
    symbolBytes cf parts.flatten = parts.flatMap (symbolBytes cf) := by
  induction parts with
  | nil => rfl
  | cons b rest ih =>
    rw [List.flatten_cons, symbolBytes_append cf _ (h b List.mem_cons_self),
      ih fun c hc => h c (List.mem_cons_of_mem b hc), List.flatMap_cons]

section Decode

variable {p : Params} {cf : Bool} {data : List Byte} (hl : data.length ≤ p.maxInLen)

include hl

/-- R154: a DECODE request within MAX_IN_LEN reports the error of DECODE's body. -/
theorem issueDecode_of_error {k : Status} (h : decodeBytes cf data = .error k) :
    issueDecode p cf data = hostResult (Response.raise k) :=
  congrArg hostResult (respond_decode_of_error (cmd_decodeRequest cf data) hl h)

theorem issueDecode_of_bad_count (h : data.length % 8 ≠ 0 ∨ trailPad data ∉ validPadCounts) :
    issueDecode p cf data = .failed .paddingError :=
  issueDecode_of_error hl (decodeBytes_of_bad_count (by rwa [trailPad_map_foldIf]))

variable (h8 : data.length % 8 = 0) (hp : trailPad data ∈ validPadCounts)

include h8 hp

theorem issueDecode_of_not_allSymbols (h : ¬AllSymbols cf (dataPart data)) :
    issueDecode p cf data = .failed .invalidDigit := by
  refine issueDecode_of_error hl (decodeBytes_of_invalid rfl (length_map_foldIf cf h8) (by rwa [trailPad_map_foldIf]) ?_)
  rw [dataPart_map_foldIf]
  simpa [AllSymbols] using h

theorem issueDecode_of_allSymbols (h : AllSymbols cf (dataPart data)) :
    issueDecode p cf data = .done (symbolBytes cf (dataPart data)) := by
  have hb := decodeBytes_of_valid rfl (length_map_foldIf cf h8) (by rwa [trailPad_map_foldIf])
    (by rwa [dataPart_map_foldIf])
  have hcount : ((dataPart data).length + 7) / 8 = data.length / 8 := by
    have hp6 := le_six_of_mem_validPadCounts hp
    have hle := trailPad_le_length data
    rw [length_dataPart]
    omega
  rw [symbolBytes, hcount, ← dataPart_map_foldIf]
  exact congrArg hostResult (respond_decode_of_ok (cmd_decodeRequest cf data) hl hb)

end Decode

/-! ## Decoding in pieces (R156) -/

/-- R156: an inner piece of whole quanta decodes when all of it is symbols. -/
theorem issueInnerDecode_of_allSymbols {p : Params} {cf : Bool} {b : List Byte} (hl : b.length ≤ p.maxInLen)
    (h8 : b.length % 8 = 0) (h : AllSymbols cf b) : issueInnerDecode p cf b = .done (symbolBytes cf b) := by
  have hp := trailPad_of_allSymbols h
  have hd := dataPart_of_trailPad_eq_zero hp
  rw [issueInnerDecode, if_neg (not_not.mpr hp), issueDecode_of_allSymbols hl h8 (by rw [hp]; decide) (by rwa [hd]), hd]

/-- R156: any other inner piece of whole quanta is an invalid digit, padding included. -/
theorem issueInnerDecode_of_not_allSymbols {p : Params} {cf : Bool} {b : List Byte} (hl : b.length ≤ p.maxInLen)
    (h8 : b.length % 8 = 0) (h : ¬AllSymbols cf b) : issueInnerDecode p cf b = .failed .invalidDigit := by
  rw [issueInnerDecode]
  split
  · rfl
  · next hp =>
    rw [not_not] at hp
    exact issueDecode_of_not_allSymbols hl h8 (by rw [hp]; decide) (by rwa [dataPart_of_trailPad_eq_zero hp])

/-- Collecting parts of which each succeeds or fails with `e` fails with `e` when one part does. -/
theorem collect_failed {issue : List Byte → HostResult} {e : HostError} {parts : List (List Byte)}
    (h : ∀ b ∈ parts, (∃ o, issue b = .done o) ∨ issue b = .failed e) (hx : ∃ b ∈ parts, issue b = .failed e)
    (out : List Byte) : collect issue parts out = .failed e := by
  induction parts generalizing out with
  | nil => simp at hx
  | cons b rest ih =>
    rw [collect]
    rcases h b List.mem_cons_self with ⟨o, hb⟩ | hb
    · rw [hb]
      exact ih (fun c hc => h c (List.mem_cons_of_mem b hc)) (by simpa [hb] using hx) _
    · rw [hb]

/-- R156: what the inner pieces of a split decode end in. -/
theorem collect_issueInnerDecode {p : Params} {cf : Bool} {init : List (List Byte)}
    (hinit : ∀ b ∈ init, b.length ≤ p.maxInLen ∧ b.length % 8 = 0) :
    (AllSymbols cf init.flatten ∧
      collect (issueInnerDecode p cf) init [] = .done (symbolBytes cf init.flatten)) ∨
    (¬AllSymbols cf init.flatten ∧ collect (issueInnerDecode p cf) init [] = .failed .invalidDigit) := by
  by_cases hs : AllSymbols cf init.flatten
  · refine .inl ⟨hs, ?_⟩
    rw [symbolBytes_flatten cf fun b hb => (hinit b hb).2]
    exact collect_done (fun b hb =>
      issueInnerDecode_of_allSymbols (hinit b hb).1 (hinit b hb).2 (allSymbols_flatten.mp hs b hb)) []
  · refine .inr ⟨hs, ?_⟩
    rw [allSymbols_flatten] at hs
    push Not at hs
    obtain ⟨b, hb, hbad⟩ := hs
    refine collect_failed (fun c hc => ?_) ⟨b, hb, issueInnerDecode_of_not_allSymbols (hinit b hb).1 (hinit b hb).2 hbad⟩ []
    by_cases hc' : AllSymbols cf c
    · exact .inl ⟨_, issueInnerDecode_of_allSymbols (hinit c hc).1 (hinit c hc).2 hc'⟩
    · exact .inr (issueInnerDecode_of_not_allSymbols (hinit c hc).1 (hinit c hc).2 hc')

/-- No piece of a non-empty buffer is empty. -/
theorem pieces_length_pos {k : Nat} (hk : 0 < k) {fuel : Nat} {data : List Byte} (h : 0 < data.length) :
    ∀ b ∈ pieces k fuel data, 0 < b.length := by
  induction fuel generalizing data with
  | zero => simpa [pieces] using h
  | succ n ih =>
    rw [pieces]
    split
    · simpa using h
    · next hlt =>
      refine List.forall_mem_cons.mpr ⟨?_, ih (by rw [List.length_drop]; omega)⟩
      rw [List.length_take]
      omega

/-- R156: the cutting of a long buffer of whole quanta into whole quanta. -/
theorem exists_pieces_eq_concat {k : Nat} {data : List Byte} (hk : 0 < k) (h0 : 0 < data.length)
    (h8 : data.length % 8 = 0) :
    ∃ init last, pieces (8 * k) data.length data = init ++ [last] ∧ data = init.flatten ++ last ∧
      (∀ b ∈ init, b.length ≤ 8 * k ∧ b.length % 8 = 0) ∧ 8 ≤ last.length ∧ last.length ≤ 8 * k ∧
      last.length % 8 = 0 := by
  rcases List.eq_nil_or_concat' (pieces (8 * k) data.length data) with hnil | ⟨init, last, hparts⟩
  · exact absurd hnil (pieces_ne_nil _ _ _)
  have hdata : data = init.flatten ++ last := by
    simpa [hparts] using (pieces_flatten (8 * k) data.length data).symm
  have hfull : ∀ b ∈ init, b.length = 8 * k := fun b hb =>
    length_of_mem_dropLast_pieces (by rwa [hparts, List.dropLast_concat])
  have hmem : last ∈ pieces (8 * k) data.length data := hparts ▸ List.mem_concat_self
  have hpos : 0 < last.length := pieces_length_pos (by omega) h0 last hmem
  have hle : last.length ≤ 8 * k := pieces_length_le (by omega) (Nat.le_refl _) last hmem
  have hinit : ∀ b ∈ init, b.length ≤ 8 * k ∧ b.length % 8 = 0 := fun b hb => by
    have := hfull b hb
    omega
  have hflat : 8 ∣ init.flatten.length := by
    rw [List.length_flatten]
    exact List.dvd_sum (List.forall_mem_map.mpr fun b hb => Nat.dvd_of_mod_eq_zero (hinit b hb).2)
  have hsum := congrArg List.length hdata
  rw [List.length_append] at hsum
  exact ⟨init, last, hparts, hdata, hinit, by omega, hle, by omega⟩

section Split

variable {p : Params} {cf : Bool} {data last : List Byte} {init : List (List Byte)} (h8 : data.length % 8 = 0)
  (hk : 8 ≤ p.maxInLen) (hparts : pieces (8 * (p.maxInLen / 8)) data.length data = init ++ [last])

include h8 hk hparts

/-- R156: an error of the last piece ends a split decode. -/
theorem splitDecode_of_last_failed {e : HostError} (hlast : issueDecode p cf last = .failed e) :
    splitDecode p cf data = .failed e := by
  rw [splitDecode, if_neg (by omega), if_neg (by omega), hparts]
  simp [hlast]

/-- R156: an error of an inner piece ends a split decode when the last piece has none. -/
theorem splitDecode_of_inner_failed {e : HostError} {final : List Byte} (hlast : issueDecode p cf last = .done final)
    (hinit : collect (issueInnerDecode p cf) init [] = .failed e) : splitDecode p cf data = .failed e := by
  rw [splitDecode, if_neg (by omega), if_neg (by omega), hparts]
  simp [hlast, hinit]

end Split

/-- R156: decoding in pieces ends as one request of a block with room for the whole buffer does. The last piece tells the
padding count of the whole, and the data of the whole is all of the inner pieces and the data of the last one. -/
theorem splitDecode_eq_issueDecode {p p' : Params} {data : List Byte} (cf : Bool) (hk : 8 ≤ p.maxInLen)
    (h0 : 0 < data.length) (hl : data.length ≤ p'.maxInLen) : splitDecode p cf data = issueDecode p' cf data := by
  by_cases h8 : data.length % 8 = 0
  · obtain ⟨init, last, hparts, hdata, hinit, hlast8, hlastle, hlastmod⟩ :=
      exists_pieces_eq_concat (k := p.maxInLen / 8) (by omega) h0 h8
    have hkle : 8 * (p.maxInLen / 8) ≤ p.maxInLen := Nat.mul_div_le _ _
    have hlastle : last.length ≤ p.maxInLen := hlastle.trans hkle
    have hmem : trailPad data ∈ validPadCounts ↔ trailPad last ∈ validPadCounts :=
      hdata ▸ trailPad_append_mem_iff init.flatten hlast8
    by_cases hp : trailPad last ∈ validPadCounts
    · have hpd := hmem.mpr hp
      have hlt : trailPad last < last.length := ((le_six_of_mem_validPadCounts hp).trans_lt (by decide)).trans_le hlast8
      have hd : dataPart data = init.flatten ++ dataPart last := hdata ▸ dataPart_append_of_lt init.flatten hlt
      by_cases hs : AllSymbols cf (dataPart last)
      · have hlast := issueDecode_of_allSymbols hlastle hlastmod hp hs
        rcases collect_issueInnerDecode (cf := cf) fun b hb => ⟨(hinit b hb).1.trans hkle, (hinit b hb).2⟩ with
          ⟨hi, hc⟩ | ⟨hi, hc⟩
        · have hflat : init.flatten.length % 8 = 0 := by
            have hsum := congrArg List.length hdata
            rw [List.length_append] at hsum
            omega
          rw [splitDecode_of_pieces h8 hk hparts hlast hc,
            issueDecode_of_allSymbols hl h8 hpd (hd ▸ allSymbols_append.mpr ⟨hi, hs⟩), hd, symbolBytes_append cf _ hflat]
        · rw [splitDecode_of_inner_failed h8 hk hparts hlast hc,
            issueDecode_of_not_allSymbols hl h8 hpd (hd ▸ fun h => hi (allSymbols_append.mp h).1)]
      · rw [splitDecode_of_last_failed h8 hk hparts (issueDecode_of_not_allSymbols hlastle hlastmod hp hs),
          issueDecode_of_not_allSymbols hl h8 hpd (hd ▸ fun h => hs (allSymbols_append.mp h).2)]
    · rw [splitDecode_of_last_failed h8 hk hparts (issueDecode_of_bad_count hlastle (.inr hp)),
        issueDecode_of_bad_count hl (.inr (mt hmem.mp hp))]
  · rw [splitDecode, if_pos h8, issueDecode_of_bad_count hl (.inl h8)]

/-- R152: blocks with room for a buffer decode it alike. -/
theorem issueDecode_congr {p p' : Params} {data : List Byte} (cf : Bool) (hl : data.length ≤ p.maxInLen)
    (hl' : data.length ≤ p'.maxInLen) : issueDecode p cf data = issueDecode p' cf data := by
  rw [issueDecode, issueDecode, respond_decode_of_le (cmd_decodeRequest cf data) hl,
    respond_decode_of_le (cmd_decodeRequest cf data) hl']

theorem hostDecode_bytes_eq_issueDecode {p p' : Params} {data : List Byte} (cf : Bool) (hk : 8 ≤ p.maxInLen)
    (hl : data.length ≤ p'.maxInLen) : hostDecode p (.bytes data) cf = issueDecode p' cf data := by
  rw [hostDecode_of_ok p cf rfl]
  split
  · next hle => exact issueDecode_congr cf hle hl
  · next hlt => exact splitDecode_eq_issueDecode cf hk (by omega) hl

/-- Settles O59: the one request is that of a block whose MAX_IN_LEN is the length of the input. -/
theorem hostSplitDecodeAgrees : Obligations.HostSplitDecodeAgrees := fun _ _ cf hk =>
  hostDecode_bytes_eq_issueDecode cf hk (Nat.le_refl _)

/-! ## How the host operations end (R154, R157) -/

theorem issueDecode_done_or_failed {p : Params} {data : List Byte} (cf : Bool) (hl : data.length ≤ p.maxInLen) :
    (∃ out, issueDecode p cf data = .done out) ∨ ∃ e, issueDecode p cf data = .failed e := by
  rcases issueDecode_of_le (cf := cf) hl with ⟨out, -, hi⟩ | ⟨-, hi⟩ | ⟨-, hi⟩
  · exact .inl ⟨out, hi⟩
  · exact .inr ⟨_, hi⟩
  · exact .inr ⟨_, hi⟩

/-- Log 12: without room for a quantum a long input is a padding error by its length, or cannot be split. -/
theorem splitDecode_of_lt_eight {p : Params} (cf : Bool) (data : List Byte) (hk : p.maxInLen < 8) :
    splitDecode p cf data = .failed .paddingError ∨ splitDecode p cf data = .cannotSplit := by
  rw [splitDecode]
  by_cases h8 : data.length % 8 = 0
  · exact .inr ((if_neg (not_not.mpr h8)).trans (if_pos (by omega)))
  · exact .inl (if_pos h8)

/-- R154: how host decode of a normalised input ends. -/
theorem hostDecode_cases_of_ok {p : Params} {x : HostValue} {data : List Byte} (cf : Bool)
    (h : normalise x = .ok data) :
    (∃ out, hostDecode p x cf = .done out) ∨ (∃ e, hostDecode p x cf = .failed e) ∨
      (hostDecode p x cf = .cannotSplit ∧ p.maxInLen < 8 ∧ p.maxInLen < data.length) := by
  rw [hostDecode_of_ok p cf h]
  by_cases hle : data.length ≤ p.maxInLen
  · rw [if_pos hle]
    exact (issueDecode_done_or_failed cf hle).imp_right .inl
  · rw [if_neg hle]
    rcases Nat.lt_or_ge p.maxInLen 8 with hk | hk
    · rcases splitDecode_of_lt_eight cf data hk with hs | hs
      · exact .inr (.inl ⟨_, hs⟩)
      · exact .inr (.inr ⟨hs, hk, Nat.lt_of_not_le hle⟩)
    · rw [splitDecode_eq_issueDecode (p' := { p with maxInLen := data.length }) cf hk (by omega) (Nat.le_refl _)]
      exact (issueDecode_done_or_failed cf (Nat.le_refl _)).imp_right .inl

/-- R154, R157: how host encode of bytes ends. -/
theorem hostEncode_bytes_cases (p : Params) (data : List Byte) :
    (∃ out, hostEncode p (.bytes data) = .done out) ∨
      (hostEncode p (.bytes data) = .cannotSplit ∧ p.maxInLen < 5 ∧ p.maxInLen < data.length) := by
  rcases Nat.lt_or_ge p.maxInLen 5 with hk | hk
  · rw [hostEncode]
    by_cases hle : data.length ≤ p.maxInLen
    · exact .inl ⟨_, (if_pos hle).trans (issueEncode_of_le hle)⟩
    · exact .inr ⟨(if_neg hle).trans (if_pos (by omega)), hk, Nat.lt_of_not_le hle⟩
  · exact .inl ⟨_, hostEncode_bytes data hk⟩

/-- Settles O57: decode fails in the normalisation or ends as its normalised input does; encode takes bytes alone. -/
theorem hostOperationsEndInTheirKinds : Obligations.HostOperationsEndInTheirKinds := by
  refine fun p cf => ⟨fun x => ?_, hostEncode_bytes_cases p, fun _ => rfl, rfl⟩
  rcases hx : normalise x with e | data
  · exact .inr (.inl ⟨e, hostDecode_of_error p cf hx⟩)
  · exact (hostDecode_cases_of_ok cf hx).imp_right
      (.imp_right fun ⟨hd, hk, hlen⟩ => ⟨hd, hk, data, rfl, hlen⟩)

end Sys2Proof.Machine
end

section
/-! PROOFS. The statements of 60_exceptions.md: an error carries no data (R172), and completing an operation changes PHASE
and RSP only (R171). -/

namespace Sys2Proof.Machine

open Sys2Proof

/-- R172: an error response is nothing but its status, whether the command decodes or not. -/
theorem exists_respond_eq_raise {p : Params} {r : Request} (h : (respond p r).status ≠ .ok) :
    ∃ k, respond p r = Response.raise k := by
  rcases hd : decode r.cmd with e | i
  · exact ⟨.illegalCommand, by simp [respond, hd]⟩
  · rcases respond_cases p hd with ⟨k, -, hr⟩ | ⟨-, v, c, -, -, hr⟩ | ⟨-, out, hr⟩ | ⟨-, -, w, hr⟩
    · exact ⟨k, hr⟩
    · exact absurd (congrArg Response.status hr) h
    · exact absurd (congrArg Response.status hr) h
    · exact absurd (congrArg Response.status hr) h

/-- Settles O36: the response is a raised status, whose other fields are zero or empty. -/
theorem errorsCarryNoData : Obligations.ErrorsCarryNoData := by
  intro p r h
  obtain ⟨k, hr⟩ := exists_respond_eq_raise h
  rw [hr]
  exact ⟨raise_rw k, raise_rcnt k, congrArg List.length (raise_out k), raise_out k⟩

/-- Settles O42, by the inversion of an instruction: its next state is `s.complete` of some response. -/
theorem instructionFrame : Obligations.InstructionFrame := by
  refine fun i s => ⟨fun r hreq => ⟨_, exec_of_req i hreq⟩, fun t h => ?_⟩
  obtain ⟨r, -, rfl⟩ := exec_next h
  exact ⟨complete_phase s _, ⟨_, complete_rsp s _⟩, complete_req s _, complete_params s _, complete_inputs s _,
    complete_delivered s _⟩

end Sys2Proof.Machine
end

section
/-! PROOFS. The statements of 70_reset_and_hazards.md: the step relation (R190, R194, R196), the block's invariant (R20, R24)
and what a reset leaves of a transaction (R192). -/

namespace Sys2Proof.Machine

open Sys2Proof

/-! ## The responses of the block (R24, R67) -/

theorem raise_sound (p : Params) {k : Status} (hk : k.byBlock = true) : (Response.raise k).Sound p :=
  ⟨hk, fun _ => ⟨rfl, rfl, rfl⟩, fun h => absurd rfl h, Nat.zero_le _, Nat.zero_le _⟩

theorem word_sound (p : Params) (w : Sys2Proof.Word) {c : BitVec 3} (hc : c.toNat ≤ 5) : (Response.word w c).Sound p :=
  ⟨rfl, fun h => absurd rfl h, fun h => absurd rfl h, hc, Nat.zero_le _⟩

theorem buffer_sound {p : Params} {out : List Byte} (h : out.length ≤ 8 * groupCount p.maxInLen) :
    (Response.buffer out).Sound p :=
  ⟨rfl, fun h => absurd rfl h, fun _ => ⟨rfl, rfl⟩, Nat.zero_le _, h⟩

/-- R67: an error of DECQ or DECODE has code 1 or 2. -/
theorem byBlock_opResponse (i : Instr) (r : Request) : (opResponse i r).status.byBlock = true := by
  rcases opResponse_status_cases i r with hs | ⟨-, hs | hs⟩ <;> rw [hs] <;> rfl

/-- R128: decoding never lengthens a buffer. -/
theorem length_le_of_decodeBytes_ok {cf : Bool} {buf out : List Byte} (h : decodeBytes cf buf = .ok out) :
    out.length ≤ buf.length := by
  obtain ⟨h8, -, rfl⟩ := decodeBytes_ok_inv h
  have hd : (dataPart (buf.map (foldIf cf))).length ≤ buf.length := by
    rw [length_dataPart, List.length_map]
    exact Nat.sub_le _ _
  rw [length_bufferBytes (by omega)]
  omega

theorem decqResponse_sound (p : Params) (cf last : Bool) (r : Request) : (decqResponse cf last r).Sound p := by
  have hb : (decqResponse cf last r).status.byBlock = true := byBlock_opResponse (.decq cf last) r
  rcases decqResponse_cases cf last r with ⟨k, -, hr⟩ | ⟨v, c, -, hc, hr⟩ <;> rw [hr] at hb ⊢
  · exact raise_sound p hb
  · exact word_sound p _ hc

/-- R6: OUT of an ENCODE within MAX_IN_LEN fits the output buffer. -/
theorem encodeResponse_sound {p : Params} {r : Request} (hl : r.len ≤ p.maxInLen) : (encodeResponse r).Sound p := by
  refine buffer_sound ?_
  have hmono : groupCount r.input.length ≤ groupCount p.maxInLen := Nat.div_le_div_right (Nat.add_le_add_right hl 4)
  rw [encodeBytes_length]
  omega

/-- R6: OUT of a DECODE within MAX_IN_LEN fits the output buffer. -/
theorem decodeResponse_sound {p : Params} {r : Request} (cf : Bool) (hl : r.len ≤ p.maxInLen) :
    (decodeResponse cf r).Sound p := by
  have hk : (decodeResponse cf r).status.byBlock = true := byBlock_opResponse (.decode cf) r
  rcases hb : decodeBytes cf r.input with k | out
  · rw [decodeResponse_of_error hb] at hk ⊢
    exact raise_sound p hk
  · rw [decodeResponse_of_ok hb]
    refine buffer_sound ?_
    have hout : out.length ≤ r.len := length_le_of_decodeBytes_ok hb
    rw [groupCount]
    omega

/-- R24, R6: a request within the length limit of its operation gets a response that the block may hold. -/
theorem opResponse_sound {p : Params} {i : Instr} {r : Request} (hl : legal p i r.len = true) :
    (opResponse i r).Sound p := by
  cases i with
  | encq nb => exact word_sound p _ (by decide)
  | decq cf last => exact decqResponse_sound p cf last r
  | fwdrd => exact word_sound p _ (by decide)
  | revrd => exact word_sound p _ (by decide)
  | encode => exact encodeResponse_sound (of_decide_eq_true hl)
  | decode cf => exact decodeResponse_sound cf (of_decide_eq_true hl)
  | pairrd => exact word_sound p _ (by decide)

/-- `Exec(REQ)` of a decoded command (R196). -/
theorem respond_of_decode {r : Request} {i : Instr} (p : Params) (hd : decode r.cmd = .ok i) :
    respond p r = guarded p i r (opResponse i r) := by
  simp only [respond, hd]

/-- `Exec(REQ)` of a command word that is none (R66). -/
theorem respond_of_decode_error {r : Request} {e : DecodeError} (p : Params) (hd : decode r.cmd = .error e) :
    respond p r = Response.raise .illegalCommand := by
  simp only [respond, hd]

/-- R24, R67, R172: every response of the block is one it may hold. -/
theorem respond_sound (p : Params) (r : Request) : (respond p r).Sound p := by
  rcases hd : decode r.cmd with e | i
  · rw [respond_of_decode_error p hd]
    exact raise_sound p rfl
  · rw [respond_of_decode p hd]
    rcases guarded_cases p i r (opResponse i r) with ⟨hl, hg⟩ | ⟨-, hg⟩ <;> rw [hg]
    · exact opResponse_sound hl
    · exact raise_sound p rfl

/-! ## The steps of R196, one by one -/

/-- R190: the step in which the host asserts reset. -/
theorem step_of_reset {s : State} (hreset : s.hostNow.reset = true) : step s = .next s.tick.resetBlock := by
  have ha : s.action = .reset := if_pos hreset
  simp only [step, ha]

/-- A step in which none of R196 is enabled (log 9). -/
theorem step_of_wait {s : State} (ha : s.action = .wait) : step s = .next s.tick := by
  simp only [step, ha]

/-- R25: when no step is enabled. -/
theorem action_eq_wait_iff (s : State) :
    s.action = .wait ↔ s.hostNow.reset = false ∧
      (s.phase = .idle ∧ s.hostNow.req = none ∨ s.phase = .resp ∧ s.hostNow.rspReady = false) := by
  rcases action_cases s with ⟨hs, ha⟩ | ⟨hs, hp, q, hq, ha⟩ | ⟨hs, hp, hq, ha⟩ | ⟨hs, hp, ha⟩ | ⟨hs, hp, hy, ha⟩ |
    ⟨hs, hp, hy, ha⟩ <;> simp [*]

/-- What the host drives in a step acts through the step it selects alone. -/
theorem step_congr {s t : State} (ha : s.action = t.action) (ht : s.tick = t.tick) : step s = step t := by
  simp only [step, ha, ht]

/-- R194: outside IDLE the offered request does not select the step. -/
theorem action_offer_of_ne_idle {s : State} (h : HostInput) (rest : List HostInput) (o : Option Request)
    (hp : s.phase ≠ .idle) :
    State.action { s with inputs := { h with req := o } :: rest } = State.action { s with inputs := h :: rest } := by
  obtain ⟨phase, req, rsp, params, inputs, delivered⟩ := s
  cases phase with
  | idle => exact absurd rfl hp
  | busy => rfl
  | resp => rfl

/-- Settles O44: the step that accepts the request, written out; `tick` is its host input, consumed (log 2). -/
theorem acceptCapturesRequest : Obligations.AcceptCapturesRequest := fun _ _ hphase hreset hreq =>
  step_of_offered hreset hphase hreq

/-- Settles O41: the step that executes the request, written out; `tick` is its host input, consumed (log 2). -/
theorem executeWritesExecOfRequest : Obligations.ExecuteWritesExecOfRequest := fun _ _ h => step_of_executing h

/-- Settles O40: both sides of each clause complete the request with the same response. -/
theorem stepRunsDecodedInstruction : Obligations.StepRunsDecodedInstruction := by
  refine fun s r h => ⟨fun i hd => ?_, fun e hd => ?_⟩
  · have hreq : s.tick.req = some r := h.2.1
    calc step s
      _ = .next (s.tick.complete (respond s.params r)) := step_of_executing h
      _ = exec i s.tick := by rw [exec_of_req i hreq, respond_of_decode s.params hd, tick_params]
  · rw [step_of_executing h, respond_of_decode_error s.params hd]
    rfl

/-- Settles O45: the step that delivers the response, written out. -/
theorem deliverHandsOverResponse : Obligations.DeliverHandsOverResponse := fun _ _ hphase hreset hready hrsp =>
  step_of_taken hreset hphase hready hrsp

/-- Settles O46: the reset step, written out; `tick` is its host input, consumed (log 2). -/
theorem resetDiscardsTransaction : Obligations.ResetDiscardsTransaction := fun _ hreset => step_of_reset hreset

/-- Settles O47: outside IDLE the offer does not select the step, and the waiting step only consumes its host input. -/
theorem blockWaitsForHost : Obligations.BlockWaitsForHost :=
  ⟨fun _ h rest o hp => step_congr (action_offer_of_ne_idle h rest o hp) rfl,
    fun s hreset hwait => step_of_wait ((action_eq_wait_iff s).mpr ⟨hreset, hwait⟩)⟩

/-! ## The invariant (R20, R196) -/

section Invariant

variable {s : State} (h : s.Inv)

include h

theorem State.Inv.exists_req (hp : s.phase = .busy) : ∃ r, s.req = some r := by
  obtain ⟨-, hbusy, -⟩ := h
  exact Option.isSome_iff_exists.mp (hbusy hp).1

theorem State.Inv.exists_rsp (hp : s.phase = .resp) : ∃ x, s.rsp = some x := by
  obtain ⟨-, -, hresp, -⟩ := h
  obtain ⟨r, -, hx⟩ := hresp hp
  exact ⟨_, hx⟩

/-- The invariant does not read the host's inputs. -/
theorem State.Inv.tick : s.tick.Inv := h

theorem State.Inv.resetBlock : s.resetBlock.Inv := by
  obtain ⟨-, -, -, -, hdel⟩ := h
  exact ⟨fun _ => ⟨rfl, rfl⟩, by simp, by simp, by simp, hdel⟩

theorem State.Inv.accept (r : Request) (hp : s.phase = .idle) : (s.accept r).Inv := by
  obtain ⟨hidle, -, -, hrsp, hdel⟩ := h
  obtain ⟨-, hnone⟩ := hidle hp
  exact ⟨by simp, fun _ => ⟨rfl, hnone⟩, by simp, hrsp, hdel⟩

/-- R196: what Execute writes is sound because every response of the block is. -/
theorem State.Inv.complete_respond {r : Request} (hr : s.req = some r) : (s.complete (respond s.params r)).Inv := by
  obtain ⟨-, -, -, -, hdel⟩ := h
  refine ⟨by simp, by simp, fun _ => ⟨r, hr, rfl⟩, fun x hx => ?_, hdel⟩
  obtain rfl : respond s.params r = x := Option.some.inj hx
  exact respond_sound s.params r

/-- R199: what Deliver appends is the held response, which is sound. -/
theorem State.Inv.deliver {x : Response} (hx : s.rsp = some x) :
    State.Inv { s with phase := .idle, req := none, rsp := none, delivered := s.delivered ++ [x] } := by
  obtain ⟨-, -, -, hrsp, hdel⟩ := h
  refine ⟨fun _ => ⟨rfl, rfl⟩, by simp, by simp, by simp, fun y hy => ?_⟩
  rcases List.mem_append.mp hy with hy | hy
  · exact hdel y hy
  · obtain rfl := List.mem_singleton.mp hy
    exact hrsp y hx

end Invariant

/-- Settles O50, by the inversion of one step: each step of R196 keeps the invariant. -/
theorem stepKeepsInv : Obligations.StepKeepsInv := by
  intro s t hs h
  have htick : s.tick.Inv := hs.tick
  rcases step_next h with rfl | ⟨r, hp, -, rfl⟩ | ⟨r, -, hr, rfl⟩ | ⟨x, -, hx, rfl⟩ | ⟨-, rfl⟩
  · exact htick.resetBlock
  · exact htick.accept r hp
  · exact htick.complete_respond hr
  · exact htick.deliver hx
  · exact htick

/-- Settles O51: BUSY holds a request to execute and RESP a response to deliver, and no other step can stop. -/
theorem invExcludesStops : Obligations.InvExcludesStops := by
  intro s hs
  rcases action_cases s with ⟨hreset, -⟩ | ⟨hreset, hp, r, hr, -⟩ | ⟨-, -, -, ha⟩ | ⟨hreset, hp, -⟩ |
    ⟨hreset, hp, hready, -⟩ | ⟨-, -, -, ha⟩
  · exact ⟨_, step_of_reset hreset⟩
  · exact ⟨_, step_of_offered hreset hp hr⟩
  · exact ⟨_, step_of_wait ha⟩
  · obtain ⟨r, hr⟩ := hs.exists_req hp
    exact ⟨_, step_of_executing ⟨hp, hr, hreset⟩⟩
  · obtain ⟨x, hx⟩ := hs.exists_rsp hp
    exact ⟨_, step_of_taken hreset hp hready hx⟩
  · exact ⟨_, step_of_wait ha⟩

/-! ## Reset of a transaction (R192) -/

/-- R192: a transaction reset in BUSY. -/
theorem run_reset_in_busy {s : State} {r : Request} {rest : List HostInput} (hphase : s.phase = .idle)
    (hreq : s.req = none) (hrsp : s.rsp = none)
    (hin : s.inputs = HostInput.offer r :: HostInput.assertReset :: rest) :
    Host.Core.run Sys2Proof.core 2 s = .next { s with inputs := rest } := by
  obtain ⟨phase, req, rsp, params, inputs, delivered⟩ := s
  subst hphase hreq hrsp hin
  calc
    _ = Host.Core.run Sys2Proof.core 1 _ := run_succ_of_next _ (step_of_offered rfl rfl rfl)
    _ = Host.Core.run Sys2Proof.core 0 _ := run_succ_of_next _ (step_of_reset rfl)

/-- R192: a transaction reset in RESP, one step after BUSY (log 8). -/
theorem run_reset_in_resp {s : State} {r : Request} {rest : List HostInput} (hphase : s.phase = .idle)
    (hreq : s.req = none) (hrsp : s.rsp = none)
    (hin : s.inputs = HostInput.offer r :: HostInput.quiet :: HostInput.assertReset :: rest) :
    Host.Core.run Sys2Proof.core 3 s = .next { s with inputs := rest } := by
  obtain ⟨phase, req, rsp, params, inputs, delivered⟩ := s
  subst hphase hreq hrsp hin
  calc
    _ = Host.Core.run Sys2Proof.core 2 _ := run_succ_of_next _ (step_of_offered rfl rfl rfl)
    _ = Host.Core.run Sys2Proof.core 1 _ := run_succ_of_next _ (step_of_executing ⟨rfl, rfl, rfl⟩)
    _ = Host.Core.run Sys2Proof.core 0 _ := run_succ_of_next _ (step_of_reset rfl)

/-- Settles O54: the reset step drops what the transaction held, and nothing was delivered. -/
theorem resetTransactionLeavesNoTrace : Obligations.ResetTransactionLeavesNoTrace := fun _ _ _ hphase hreq hrsp =>
  ⟨run_reset_in_busy hphase hreq hrsp, run_reset_in_resp hphase hreq hrsp⟩

end Sys2Proof.Machine
end
